-- ==== Sys2Proof/Word.lean ====
section
/-! DEFINITION. The word type of the machine: a byte (00_scope.md R8, 10_state.md R20, 20_memory.md R40). -/

namespace Sys2Proof

/-- An unsigned 8-bit value: a register, a memory cell, an opcode or operand byte (R8, R20, R40). -/
abbrev Byte := BitVec 8

end Sys2Proof
end

