-- ==== Sys2Proof/Config.lean ====
section
/-! DEFINITION. The implementation parameters of 00_scope.md R7: the fixed sizes and start values, and the
parameter `OPC`, the map from mnemonic to opcode byte, whose default stands in Decode.lean. -/

namespace Sys2Proof

/-- The 21 mnemonics of 30_encoding.md R66, in the table's order: the keys of the parameter `OPC`. -/
inductive Mnemonic where
  | hlt | ret
  | push | pop | prn | call | jmp | jeq | jne | not
  | ldi
  | add | sub | mul | mod | cmp | and | or | xor | shl | shr
  deriving DecidableEq, Repr

/-- What an implementation fixes and the spec leaves open as a parameter: `OPC` (R7, 92_eei_decisions.md D1).
Which maps are admissible is `Config.Valid` in Decode.lean (R67). -/
structure Config where
  opc : Mnemonic → Byte

namespace Config

/-- `MEMSIZE`, the number of memory cells (R7, R40). -/
abbrev memSize : Nat := 256

/-- `NREGS`, the number of registers (R7, R20). -/
abbrev numRegs : Nat := 8

/-- `SP`, the index of the stack-pointer register (R7, R22). -/
abbrev spIndex : Fin numRegs := 7

/-- `SP_INIT`, the stack pointer at the start of execution (R7, R33). -/
abbrev spInit : Byte := 0xF4

/-- `PC_INIT`, the program counter at the start of execution (R7, R33). -/
abbrev pcInit : Nat := 0

end Config

end Sys2Proof
end

