-- ==== Sys2Proof/Machine/State.lean ====
section
/-! DEFINITION. The state of the machine (10_state.md): the tuple registers, pc, flags, memory, run status and
output, as plain data; the reasons a step can stop; the state after reset. -/

namespace Sys2Proof.Machine

/-- The three condition codes, three separate bits (R26). Only CMP writes them, only JEQ and JNE read one (R27). -/
structure Flags where
  lt : Bool
  gt : Bool
  eq : Bool
  deriving DecidableEq, Repr

/-- The two kinds of output event (R31). -/
inductive OutEvent where
  /-- `Print(v)`, appended by PRN (R121). -/
  | print (v : Byte)
  /-- `DivZeroDiag`, appended by MOD with a zero divisor (R111). -/
  | divZeroDiag
  deriving DecidableEq, Repr

/-- The cause of a fatal abort: the exactly two of 60_exceptions.md R160, with the value each carries. -/
inductive Cause where
  /-- A memory access at 256 or above; only the fetch can make one (R41, R44, R82). -/
  | addressOutOfRange (addr : Nat)
  /-- An operand byte of 8 to 255 used as a register index (R85). -/
  | registerIndexOutOfRange (idx : Byte)
  deriving DecidableEq, Repr

/-- The run status (R29). -/
inductive RunStatus where
  /-- The Execution Engine performs steps. -/
  | running
  /-- The clean end of a run: HLT, or MOD with a zero divisor. -/
  | halted
  /-- The failed end of a run: a fatal abort. -/
  | aborted (cause : Cause)
  deriving DecidableEq, Repr

/-- Why the machine stops with a fault. -/
inductive Fault where
  /-- Raised by `step` on a state whose status is `aborted cause`: an aborted run is a failed run, a state from
  which nothing steps (R30, R163; log 8). Safe: it allows no step the hardware takes. -/
  | aborted (cause : Cause)
  deriving DecidableEq, Repr

/-- Why there is no step, other than a fault. -/
inductive Refusal where
  /-- Raised by `exec` for an instruction that has no meaning yet, with its mnemonic. Safe. (Every instruction of
  this model has its meaning, so nothing raises it.) -/
  | notModelled (mnemonic : String)
  /-- Raised by `step` on a state whose status is `halted`: the run has ended cleanly and no further step is ever
  taken (R29, R30, R80; log 13). Safe: it allows no step the hardware takes. -/
  | halted
  deriving DecidableEq, Repr

/-- Memory: the cells that differ from what an unlisted address reads as, at strictly rising addresses (the form is
`Memory.wf` of Ops.lean). There are 256 cells, at addresses 0 to 255 (20_memory.md R40). -/
abbrev Memory := List Host.Cell

/-- What an unlisted address reads as: memory is zero-initialized (R40, R190). -/
def Memory.unlisted : Byte := 0

/-- The complete state of the machine (the tuple at the head of 10_state.md). -/
structure State where
  /-- The Register File: 8 registers of 8 bits; register 7 is the stack pointer (R20, R22). -/
  x : Vector Byte Config.numRegs
  /-- The program counter, a natural number that does not wrap (R24). -/
  pc : Nat
  /-- The Flags (R26). -/
  fl : Flags
  /-- Memory (R40). -/
  mem : Memory
  /-- The run status (R29). -/
  status : RunStatus
  /-- The output stream, oldest event first (R31). -/
  out : List OutEvent
  deriving DecidableEq, Repr

/-- The machine right after reset (R33, R190): registers 0 to 6 zero, register 7 = 0xF4, pc = 0, flags zero, every
memory cell zero, status running, output empty. The loader then writes the image: `State.boot` of Boot.lean. -/
def State.reset : State where
  x := #v[0, 0, 0, 0, 0, 0, 0, Config.spInit]
  pc := Config.pcInit
  fl := ⟨false, false, false⟩
  mem := []
  status := .running
  out := []

end Sys2Proof.Machine
end

