-- ==== Sys2Proof/Machine/Flags.lean ====
section
/-! DEFINITION. The flag computation: CMP is the only instruction that writes the flags (10_state.md R27), and it
writes all three from an unsigned comparison (41_alu.md R104). -/

namespace Sys2Proof.Machine

/-- LT, GT and EQ of two bytes compared as natural numbers (R104). -/
def compareFlags (p q : Byte) : Flags where
  lt := decide (p.toNat < q.toNat)
  gt := decide (p.toNat > q.toNat)
  eq := decide (p.toNat = q.toNat)

end Sys2Proof.Machine
end

