-- ==== Sys2Proof/Machine/Ops.lean ====
section
/-! DEFINITION. The named operations over memory, registers, output and status: the pseudocode primitives of
00_scope.md R9, and the one operation that raises a fatal abort (60_exceptions.md R162). There is no return from an
abort (R170, R171), so there is no operation for one. -/

namespace Sys2Proof.Machine

/-- The outcome of an instruction or a step. -/
abbrev Result := Host.Outcome State Fault Refusal

/-! ## Memory -/

/-- The canonical form: strictly rising addresses, all below 256, and no entry that an unlisted address would read
as. Equal memories are then equal data. -/
abbrev Memory.wf (m : Memory) : Prop :=
  m.Pairwise (fun p q => p.1 < q.1) ∧ ∀ p ∈ m, p.1 < Config.memSize ∧ p.2 ≠ Memory.unlisted

/-- The byte listed at address `n`, or what an unlisted address reads as. -/
def Memory.get : Memory → Nat → Byte
  | [], _ => Memory.unlisted
  | (k, v) :: rest, n => if n = k then v else Memory.get rest n

/-- Memory with the byte `v` at address `n`, in canonical form: writing what an unlisted address reads as removes
the entry. -/
def Memory.set : Memory → Nat → Byte → Memory
  | [], n, v => if v = Memory.unlisted then [] else [(n, v)]
  | (k, w) :: rest, n, v =>
    if n < k then
      if v = Memory.unlisted then (k, w) :: rest else (n, v) :: (k, w) :: rest
    else if n = k then
      if v = Memory.unlisted then rest else (n, v) :: rest
    else (k, w) :: Memory.set rest n v

/-- Place bytes at ascending addresses from `n`, dropping what would stand above address 255. This is what the
loader does before a run (70_reset_and_hazards.md R191, R192), not an access of the CORE. -/
def Memory.place : Memory → Nat → List Byte → Memory
  | m, _, [] => m
  | m, n, v :: vs => Memory.place (if n < Config.memSize then m.set n v else m) (n + 1) vs

/-- `MemRead(addr, 1)`: the byte in the cell, or the cause of the abort when `addr >= 256` (20_memory.md R41). -/
def memRead (addr : Nat) (s : State) : Except Cause Byte :=
  if addr < Config.memSize then .ok (s.mem.get addr) else .error (.addressOutOfRange addr)

/-- `MemWrite(addr, 1, v)`: sets the cell and changes no other, or the cause of the abort when `addr >= 256`
(20_memory.md R42). -/
def memWrite (addr : Nat) (v : Byte) (s : State) : Except Cause State :=
  if addr < Config.memSize then .ok { s with mem := s.mem.set addr v } else .error (.addressOutOfRange addr)

/-! ## Registers -/

/-- `x[i]`, read register `i` (R9). No register is hardwired (10_state.md R21). -/
def State.getReg (s : State) (i : Fin Config.numRegs) : Byte := s.x.get i

/-- `x[i] <- v`, write register `i` (R9). -/
def State.setReg (s : State) (i : Fin Config.numRegs) (v : Byte) : State := { s with x := s.x.set i v }

/-- `sp`, shorthand for `x[7]` (R9, R22). -/
def State.sp (s : State) : Byte := s.getReg Config.spIndex

/-- `x[7] <- (x[7] + 255) mod 256`: the decrement of PUSH and CALL (43_stack.md R130, 44_control.md R141). -/
def State.decSp (s : State) : State :=
  s.setReg Config.spIndex (BitVec.ofNat 8 ((s.sp.toNat + 255) % 256))

/-- `x[7] <- (x[7] + 1) mod 256`: the increment of POP and RET (43_stack.md R131, 44_control.md R142). -/
def State.incSp (s : State) : State :=
  s.setReg Config.spIndex (BitVec.ofNat 8 ((s.sp.toNat + 1) % 256))

/-! ## Program counter, output, status -/

/-- ADVANCE: `pc <- pc + n`, an addition of natural numbers that does not wrap (40_cycle.md R86). -/
def State.advance (s : State) (n : Nat) : State := { s with pc := s.pc + n }

/-- `pc <- t` for a byte `t`: a control transfer sets pc and no advance is added (R140, 40_cycle.md R87). -/
def State.jump (s : State) (t : Byte) : State := { s with pc := t.toNat }

/-- `Emit(e)`: append an output event (R9, R31). -/
def State.emit (s : State) (e : OutEvent) : State := { s with out := s.out ++ [e] }

/-- `halt`: `status <- halted` (R9, 60_exceptions.md R165). -/
def State.halt (s : State) : State := { s with status := .halted }

/-! ## Taking an exception -/

/-- `raise E(info)`: take a fatal abort. `status <- aborted(E(info))` and nothing else: x, pc, FL, mem and out keep
the values they had before the step, pc the address of the faulting opcode byte (60_exceptions.md R162, R170). `s`
is the state before the instruction. From the state this answers, `step` answers a fault (R163; log 8). -/
def raise (c : Cause) (s : State) : Result := .next { s with status := .aborted c }

/-- Go on with the value of an operation that may raise; if it raises, take the abort from `s`, the state before
the instruction, so that no partial effect remains (R162). -/
def orRaise {α : Type} (s : State) (e : Except Cause α) (k : α → Result) : Result :=
  match e with
  | .ok v => k v
  | .error c => raise c s

/-- Push a byte: decrement sp, then write at the new sp the value that `v` reads from the state after the decrement
(R130, R141; the order decides what PUSH R7 and CALL R7 do, log 10). -/
def pushByte (s : State) (v : State → Byte) (k : State → Result) : Result :=
  orRaise s (memWrite s.decSp.sp.toNat (v s.decSp) s.decSp) k

/-- Read the byte at sp, the old sp: the first half of a pop (R131, R142). -/
def topByte (s : State) (k : Byte → Result) : Result :=
  orRaise s (memRead s.sp.toNat s) k

end Sys2Proof.Machine
end

