-- ==== Sys2Proof/Machine/Operands.lean ====
section
/-! DEFINITION. The operand forms (30_encoding.md R63 to R65) and phase CHECK (40_cycle.md R85): every operand byte
used as a register index must be at most 7, `a` before `b`, before any effect of the instruction. The one other
form, LDI's immediate, is the byte as it stands (R64). -/

namespace Sys2Proof.Machine

/-- CHECK of one operand byte: the register it names, or the cause of the abort. The byte is not masked (R63). -/
def checkIndex (v : Byte) : Except Cause (Fin Config.numRegs) :=
  if h : v.toNat < Config.numRegs then .ok ⟨v.toNat, h⟩ else .error (.registerIndexOutOfRange v)

/-- An instruction with one register operand `a`. -/
def withReg (a : Byte) (s : State) (k : Fin Config.numRegs → Result) : Result :=
  orRaise s (checkIndex a) k

/-- An instruction with two register operands, `a` examined before `b` (R85). -/
def withRegs (a b : Byte) (s : State) (k : Fin Config.numRegs → Fin Config.numRegs → Result) : Result :=
  withReg a s fun ra => withReg b s fun rb => k ra rb

end Sys2Proof.Machine
end

