-- ==== Sys2Proof/Machine/Alu.lean ====
section
/-! DEFINITION. The eleven ALU instructions (41_alu.md). Ten write one byte to x[a] and touch no flag; CMP writes
the flags and no register; none touches memory (R100). -/

namespace Sys2Proof.Machine

/-! ## Results (the table of R112) -/

/-- `(p + q) mod 256` (R101). -/
def aluAdd (p q : Byte) : Byte := p + q

/-- `(p + 256 - q) mod 256` (R102). -/
def aluSub (p q : Byte) : Byte := p - q

/-- `(p * q) mod 256` (R103). -/
def aluMul (p q : Byte) : Byte := p * q

/-- Bitwise and (R105). -/
def aluAnd (p q : Byte) : Byte := p &&& q

/-- Bitwise or (R106). -/
def aluOr (p q : Byte) : Byte := p ||| q

/-- Bitwise exclusive or (R107). -/
def aluXor (p q : Byte) : Byte := p ^^^ q

/-- `255 - p`: every one of the 8 bits inverted (R108). -/
def aluNot (p : Byte) : Byte := ~~~p

/-- Shift left by the whole byte `q`, zeros entering at bit 0; 0 from 8 places upward (R109; log 9). -/
def aluShl (p q : Byte) : Byte := if 8 ≤ q.toNat then 0 else p <<< q.toNat

/-- Logical shift right by the whole byte `q`, zeros entering at bit 7; 0 from 8 places upward (R110; log 9). -/
def aluShr (p q : Byte) : Byte := if 8 ≤ q.toNat then 0 else p >>> q.toNat

/-- The unsigned remainder; `execMod` uses it only for a non-zero divisor (R111). -/
def aluMod (p q : Byte) : Byte := p % q

/-! ## The shared form -/

/-- A two-register operation: check the operands, `x[a] <- f x[a] x[b]`, `pc <- pc + 3` (R100). -/
def aluWrite (f : Byte → Byte → Byte) (a b : Byte) (s : State) : Result :=
  withRegs a b s fun ra rb => .next ((s.setReg ra (f (s.getReg ra) (s.getReg rb))).advance 3)

/-! ## The instructions -/

/-- ADD ra, rb (R101). -/
def execAdd (a b : Byte) (s : State) : Result := aluWrite aluAdd a b s

/-- SUB ra, rb (R102). -/
def execSub (a b : Byte) (s : State) : Result := aluWrite aluSub a b s

/-- MUL ra, rb: the product, not the square (R103, 90_conflicts.md C9). -/
def execMul (a b : Byte) (s : State) : Result := aluWrite aluMul a b s

/-- AND ra, rb, with write-back (R105, 90_conflicts.md C9). -/
def execAnd (a b : Byte) (s : State) : Result := aluWrite aluAnd a b s

/-- OR ra, rb, with write-back (R106). -/
def execOr (a b : Byte) (s : State) : Result := aluWrite aluOr a b s

/-- XOR ra, rb, with write-back (R107). -/
def execXor (a b : Byte) (s : State) : Result := aluWrite aluXor a b s

/-- SHL ra, rb (R109). -/
def execShl (a b : Byte) (s : State) : Result := aluWrite aluShl a b s

/-- SHR ra, rb (R110). -/
def execShr (a b : Byte) (s : State) : Result := aluWrite aluShr a b s

/-- NOT r: the fetched `b` is ignored; `pc <- pc + 2` (R108). -/
def execNot (a : Byte) (s : State) : Result :=
  withReg a s fun ra => .next ((s.setReg ra (aluNot (s.getReg ra))).advance 2)

/-- CMP ra, rb: all three flags written, no register (R104). -/
def execCmp (a b : Byte) (s : State) : Result :=
  withRegs a b s fun ra rb =>
    .next (({ s with fl := compareFlags (s.getReg ra) (s.getReg rb) } : State).advance 3)

/-- MOD ra, rb: a zero divisor emits `DivZeroDiag` and halts with x[a] unwritten; pc + 3 in both cases (R111,
60_exceptions.md R165; log 6). -/
def execMod (a b : Byte) (s : State) : Result :=
  withRegs a b s fun ra rb =>
    if s.getReg rb = 0 then .next (((s.emit .divZeroDiag).halt).advance 3)
    else .next ((s.setReg ra (aluMod (s.getReg ra) (s.getReg rb))).advance 3)

end Sys2Proof.Machine
end

