-- ==== Sys2Proof/Machine/Control.lean ====
section
/-! DEFINITION. The five control-transfer instructions (44_control.md): register-indirect and absolute, no link
register, no delay slot (R140). -/

namespace Sys2Proof.Machine

/-- `pc + 2` as the byte that CALL pushes. A CALL executes only at pc <= 253, where it fits (R141; log 14). -/
def returnByte (s : State) : Byte := BitVec.ofNat 8 (s.pc + 2)

/-- CALL r: push pc + 2, then `pc <- x[a]`, read after the push (R141; log 10). -/
def execCall (a : Byte) (s : State) : Result :=
  withReg a s fun ra => pushByte s returnByte fun t => .next (t.jump (t.getReg ra))

/-- RET: pc from the byte at the old sp, then increment sp (R142). -/
def execRet (s : State) : Result :=
  topByte s fun v => .next ((s.jump v).incSp)

/-- JMP r: `pc <- x[a]` (R143). -/
def execJmp (a : Byte) (s : State) : Result :=
  withReg a s fun ra => .next (s.jump (s.getReg ra))

/-- JEQ r: taken if EQ is set, else `pc <- pc + 2`; the operand is checked either way (R144, R85). -/
def execJeq (a : Byte) (s : State) : Result :=
  withReg a s fun ra => .next (if s.fl.eq then s.jump (s.getReg ra) else s.advance 2)

/-- JNE r: taken if EQ is clear, else `pc <- pc + 2`; the operand is checked either way (R145, R85). -/
def execJne (a : Byte) (s : State) : Result :=
  withReg a s fun ra => .next (if s.fl.eq then s.advance 2 else s.jump (s.getReg ra))

end Sys2Proof.Machine
end

