-- ==== Sys2Proof/Machine/LoadPrintHalt.lean ====
section
/-! DEFINITION. Load immediate, print, halt (42_load_print_halt.md). -/

namespace Sys2Proof.Machine

/-- LDI r, v: `x[a] <- b`, the immediate as it stands (R120). -/
def execLdi (a b : Byte) (s : State) : Result :=
  withReg a s fun ra => .next ((s.setReg ra b).advance 3)

/-- PRN r: `Emit(Print(x[a]))` (R121). -/
def execPrn (a : Byte) (s : State) : Result :=
  withReg a s fun ra => .next ((s.emit (.print (s.getReg ra))).advance 2)

/-- HLT: `status <- halted`, `pc <- pc + 1` (R122; log 6). -/
def execHlt (s : State) : Result := .next (s.halt.advance 1)

end Sys2Proof.Machine
end

