-- ==== Sys2Proof/Machine/Stack.lean ====
section
/-! DEFINITION. PUSH and POP (43_stack.md). The lines run top to bottom and a later line sees the writes of an
earlier one (00_scope.md R10), which decides the forms whose operand is register 7 (R132; log 10). -/

namespace Sys2Proof.Machine

/-- PUSH r: decrement sp, write x[a] at the new sp; x[a] is read after the decrement (R130). -/
def execPush (a : Byte) (s : State) : Result :=
  withReg a s fun ra => pushByte s (fun t => t.getReg ra) fun t => .next (t.advance 2)

/-- POP r: x[a] from the byte at the old sp, then increment x[7] as it stands after that write (R131). -/
def execPop (a : Byte) (s : State) : Result :=
  withReg a s fun ra => topByte s fun v => .next ((s.setReg ra v).incSp.advance 2)

end Sys2Proof.Machine
end

