-- ==== Sys2Proof/Syntax.lean ====
section
/-! DEFINITION. The instructions: one constructor per row of the opcode table (30_encoding.md R66), in the table's
order. An operand is the whole operand byte (R63, R64): a register operand of 8 to 255 is a term of this type, and
executing it raises the fatal abort of 40_cycle.md R85. -/

namespace Sys2Proof

/-- An instruction with its operand bytes: `a` is the byte at pc + 1, `b` the byte at pc + 2 (R62, R65, R70). -/
inductive Instr where
  /-- HLT, stop (R122). -/
  | hlt
  /-- RET, pop the return address into pc (R142). -/
  | ret
  /-- PUSH r (R130). -/
  | push (a : Byte)
  /-- POP r (R131). -/
  | pop (a : Byte)
  /-- PRN r, emit a register's value (R121). -/
  | prn (a : Byte)
  /-- CALL r (R141). -/
  | call (a : Byte)
  /-- JMP r (R143). -/
  | jmp (a : Byte)
  /-- JEQ r, jump if the EQ flag is set (R144). -/
  | jeq (a : Byte)
  /-- JNE r, jump if the EQ flag is clear (R145). -/
  | jne (a : Byte)
  /-- NOT r, bitwise complement (R108). -/
  | not (a : Byte)
  /-- LDI r, v: `a` a register index, `b` the immediate (R120). -/
  | ldi (a b : Byte)
  /-- ADD ra, rb (R101). -/
  | add (a b : Byte)
  /-- SUB ra, rb (R102). -/
  | sub (a b : Byte)
  /-- MUL ra, rb (R103). -/
  | mul (a b : Byte)
  /-- MOD ra, rb (R111). -/
  | mod (a b : Byte)
  /-- CMP ra, rb (R104). -/
  | cmp (a b : Byte)
  /-- AND ra, rb (R105). -/
  | and (a b : Byte)
  /-- OR ra, rb (R106). -/
  | or (a b : Byte)
  /-- XOR ra, rb (R107). -/
  | xor (a b : Byte)
  /-- SHL ra, rb (R109). -/
  | shl (a b : Byte)
  /-- SHR ra, rb (R110). -/
  | shr (a b : Byte)
  deriving DecidableEq, Repr

end Sys2Proof
end

