-- ==== Sys2Proof/WellFormed.lean ====
section
/-! DEFINITION. Which instructions are well formed: every operand byte used as a register index is 0 to 7
(30_encoding.md R63, R65). The immediate of LDI is not restricted (R64). An ill-formed instruction still decodes
and executes: it raises the fatal abort of 40_cycle.md R85. -/

namespace Sys2Proof

/-- A byte that is a valid register index (R63). -/
def validIndex (v : Byte) : Bool := decide (v.toNat < Config.numRegs)

/-- The operand bytes an instruction uses as register indices, in the order they are checked (R65, the table
below R85). -/
def Instr.regOperands : Instr → List Byte
  | .hlt | .ret => []
  | .push a | .pop a | .prn a | .call a | .jmp a | .jeq a | .jne a | .not a => [a]
  | .ldi a _ => [a]
  | .add a b | .sub a b | .mul a b | .mod a b | .cmp a b
  | .and a b | .or a b | .xor a b | .shl a b | .shr a b => [a, b]

/-- Every register operand is a valid index (R63). -/
def Instr.wf (i : Instr) : Bool := i.regOperands.all validIndex

end Sys2Proof
end

