-- ==== Sys2Proof/Decode.lean ====
section
/-! DEFINITION. Instruction encoding (30_encoding.md): the default opcode map, the constraints on any map, the
decoder, total on any three bytes and rejecting an unassigned opcode by name, and the encoder. -/

namespace Sys2Proof

/-- The mnemonics in the order of the table of R66. -/
def Mnemonic.all : List Mnemonic :=
  [.hlt, .ret, .push, .pop, .prn, .call, .jmp, .jeq, .jne, .not, .ldi,
   .add, .sub, .mul, .mod, .cmp, .and, .or, .xor, .shl, .shr]

/-- The number of operand bytes of each instruction (the table of R67; NOT has one by 92_eei_decisions.md D3). -/
def Mnemonic.operandCount : Mnemonic → Nat
  | .hlt | .ret => 0
  | .push | .pop | .prn | .call | .jmp | .jeq | .jne | .not => 1
  | .ldi | .add | .sub | .mul | .mod | .cmp | .and | .or | .xor | .shl | .shr => 2

/-- `opcode[7:6]`, the operand count that an opcode byte carries (R61). -/
def opcodeCount (op : Byte) : Nat := op.toNat / 64

/-- `step = opcode[7:6] + 1`, the length in bytes of the instruction (R60, 40_cycle.md R83). -/
def opcodeLength (op : Byte) : Nat := opcodeCount op + 1

/-- The admissible opcode maps: injective, and bits 7:6 of each value are the operand count (R67). -/
def Config.Valid (c : Config) : Prop :=
  (∀ m n, c.opc m = c.opc n → m = n) ∧ ∀ m, opcodeCount (c.opc m) = m.operandCount

/-- The default opcode values (R66). UNVERIFIED: R66 gives them, and marks them as general knowledge and not from its
source (92_eei_decisions.md D1; log 1). Unsafe if the hardware's table differs. -/
def defaultOpc : Mnemonic → Byte
  | .hlt  => 0b00000001
  | .ret  => 0b00010001
  | .push => 0b01000101
  | .pop  => 0b01000110
  | .prn  => 0b01000111
  | .call => 0b01010000
  | .jmp  => 0b01010100
  | .jeq  => 0b01010101
  | .jne  => 0b01010110
  | .not  => 0b01101001
  | .ldi  => 0b10000010
  | .add  => 0b10100000
  | .sub  => 0b10100001
  | .mul  => 0b10100010
  | .mod  => 0b10100100
  | .cmp  => 0b10100111
  | .and  => 0b10101000
  | .or   => 0b10101010
  | .xor  => 0b10101011
  | .shl  => 0b10101100
  | .shr  => 0b10101101

/-- The default configuration: `OPC` is the table of R66. -/
def Config.default : Config := ⟨defaultOpc⟩

/-- Why three bytes are no instruction of the table. -/
inductive DecodeRefusal where
  /-- The opcode byte is not one of the 21 assigned values (R68). The engine executes it as a no-operation
  (40_cycle.md R88); only `decodeTableWord` answers none for it. Safe. -/
  | unassigned (op : Byte)
  deriving DecidableEq, Repr

/-- The mnemonic whose opcode byte is `op`: the whole byte is compared (R61, 40_cycle.md R84). -/
def Config.lookup (c : Config) (op : Byte) : Option Mnemonic :=
  Mnemonic.all.find? fun m => c.opc m == op

/-- The instruction that a mnemonic and the two candidate operand bytes stand for; bytes the instruction does not
use are ignored (R65). -/
def Instr.build (m : Mnemonic) (a b : Byte) : Instr :=
  match m with
  | .hlt => .hlt
  | .ret => .ret
  | .push => .push a
  | .pop => .pop a
  | .prn => .prn a
  | .call => .call a
  | .jmp => .jmp a
  | .jeq => .jeq a
  | .jne => .jne a
  | .not => .not a
  | .ldi => .ldi a b
  | .add => .add a b
  | .sub => .sub a b
  | .mul => .mul a b
  | .mod => .mod a b
  | .cmp => .cmp a b
  | .and => .and a b
  | .or => .or a b
  | .xor => .xor a b
  | .shl => .shl a b
  | .shr => .shr a b

/-- DECODE: opcode byte `op` and candidate operands `a`, `b` (R61, R65, 40_cycle.md R84). Register operands are
not checked here: that is the later phase CHECK (40_cycle.md R81, R85). -/
def decode (c : Config) (op a b : Byte) : Except DecodeRefusal Instr :=
  match c.lookup op with
  | some m => .ok (Instr.build m a b)
  | none => .error (.unassigned op)

/-- The mnemonic of an instruction. -/
def Instr.mnemonic : Instr → Mnemonic
  | .hlt => .hlt
  | .ret => .ret
  | .push _ => .push
  | .pop _ => .pop
  | .prn _ => .prn
  | .call _ => .call
  | .jmp _ => .jmp
  | .jeq _ => .jeq
  | .jne _ => .jne
  | .not _ => .not
  | .ldi _ _ => .ldi
  | .add _ _ => .add
  | .sub _ _ => .sub
  | .mul _ _ => .mul
  | .mod _ _ => .mod
  | .cmp _ _ => .cmp
  | .and _ _ => .and
  | .or _ _ => .or
  | .xor _ _ => .xor
  | .shl _ _ => .shl
  | .shr _ _ => .shr

/-- The operand bytes of an instruction, at the addresses after the opcode byte (R62). -/
def Instr.operands : Instr → List Byte
  | .hlt | .ret => []
  | .push a | .pop a | .prn a | .call a | .jmp a | .jeq a | .jne a | .not a => [a]
  | .ldi a b | .add a b | .sub a b | .mul a b | .mod a b | .cmp a b
  | .and a b | .or a b | .xor a b | .shl a b | .shr a b => [a, b]

/-- The bytes of an instruction at ascending addresses: opcode, then operands (R45, R60, R62). -/
def encode (c : Config) (i : Instr) : List Byte := c.opc i.mnemonic :: i.operands

/-- Byte `k` of an instruction given as one number, bit 0 the least significant bit of the first byte; bits at
`nbits` and above are zero. -/
def tableByte (nbits w k : Nat) : Byte := BitVec.ofNat 8 (w % 2 ^ nbits / 256 ^ k)

/-- The instruction the decoder reads, under the default opcode map, from an instruction whose bits are `w` as
spec/opcode_table.json numbers them. -/
def decodeTableWord (nbits w : Nat) : Option Instr :=
  match decode Config.default (tableByte nbits w 0) (tableByte nbits w 1) (tableByte nbits w 2) with
  | .ok i => some i
  | .error _ => none

end Sys2Proof
end

