-- ==== Sys2Proof/Machine/Unassigned.lean ====
section
/-! DEFINITION. What an unassigned opcode does (40_cycle.md R88). It is no row of the opcode table, so no
constructor of `Instr`. -/

namespace Sys2Proof.Machine

/-- `UNASSIGNED_POLICY = nop_advance` (R7, 92_eei_decisions.md D5; log 5): nothing but
`pc <- pc + opcode[7:6] + 1` (R88). -/
def execUnassigned (op : Byte) (s : State) : Result := .next (s.advance (opcodeLength op))

end Sys2Proof.Machine
end

