-- ==== Sys2Proof/Machine/Cycle.lean ====
section
/-! DEFINITION. The body of the fetch-decode-execute loop (40_cycle.md R81): FETCH, then DECODE, then the
instruction's own CHECK, EXECUTE and ADVANCE. -/

namespace Sys2Proof.Machine

/-- FETCH: three bytes, always, at pc, pc + 1, pc + 2 in that order; the first address of 256 or more is the one
the abort carries (R82). -/
def fetch (s : State) : Except Cause (Byte × Byte × Byte) :=
  match memRead s.pc s with
  | .error c => .error c
  | .ok op =>
    match memRead (s.pc + 1) s with
    | .error c => .error c
    | .ok a =>
      match memRead (s.pc + 2) s with
      | .error c => .error c
      | .ok b => .ok (op, a, b)

/-- The phases after FETCH: an assigned opcode executes its instruction, an unassigned one R88 (R84). -/
def execBytes (c : Config) (op a b : Byte) (s : State) : Result :=
  match decode c op a b with
  | .ok i => exec i s
  | .error (.unassigned u) => execUnassigned u s

/-- One pass of the loop body, for a machine whose status is running (R81). -/
def cycle (c : Config) (s : State) : Result :=
  orRaise s (fetch s) fun w => execBytes c w.1 w.2.1 w.2.2 s

/-- The three bytes of an instruction given as one number (as `decodeTableWord` reads it), in memory at pc. -/
def State.placeWord (s : State) (nbits w : Nat) : State :=
  { s with mem := s.mem.place s.pc [tableByte nbits w 0, tableByte nbits w 1, tableByte nbits w 2] }

end Sys2Proof.Machine
end

