-- ==== Sys2Proof/Machine/Step.lean ====
section
/-! DEFINITION. One step of the machine (40_cycle.md R80, R81). -/

namespace Sys2Proof.Machine

/-- One step under the configuration `c`: while running, one pass of the loop body; from `halted` and `aborted` no
step is taken (R30, R80). DEDUCED: the host's three outcomes show these two as a refusal and a fault, each by a
name of its own (R163; log 8, log 13). Safe. -/
def stepWith (c : Config) (s : State) : Host.Outcome State Fault Refusal :=
  match s.status with
  | .running => cycle c s
  | .halted => .refused .halted
  | .aborted cause => .fault (.aborted cause)

/-- One step of the machine with the default opcode table of 30_encoding.md R66 (log 1). -/
def step (s : State) : Host.Outcome State Fault Refusal := stepWith Config.default s

/-- `s` with the given instruction's bytes in memory where the next step fetches: at pc, pc + 1 and pc + 2. Only
memory changes. The next step of a running machine at pc <= 253 runs exactly that instruction; above 253 the fetch
aborts whatever memory holds (R82; log 12). -/
def State.withFetchWord (s : State) (nbits w : Nat) : State := s.placeWord nbits w

end Sys2Proof.Machine
end

