-- ==== Sys2Proof/Machine/Boot.lean ====
section
/-! DEFINITION. The loader's part before execution starts (70_reset_and_hazards.md R191, R192). -/

namespace Sys2Proof.Machine

/-- The machine ready for its first fetch: reset, then the image's bytes in memory from address 0 upward, every
other cell 0 (R33, R191, R192). `image` is the program's bytes, at most 256; what a loader does with more is not
stated, and here they are dropped (91_not_in_source.md N19; log 12). -/
def State.boot (image : List Byte) : State := { State.reset with mem := State.reset.mem.place 0 image }

end Sys2Proof.Machine
end

