-- ==== Sys2Proof/Safety.lean ====
section
/-! DEFINITION. The terms claims use: the invariant of the machine, what a fetch finds, what an instruction leaves
unchanged, and what counts as a clean, a failed and a safe run (40_cycle.md R89, 60_exceptions.md R163). -/

namespace Sys2Proof.Machine

/-! ## The invariant -/

/-- At most one flag is set: all clear before the first CMP, exactly one after it (10_state.md R26). -/
def Flags.exclusive (f : Flags) : Bool := !(f.lt && f.gt) && !(f.lt && f.eq) && !(f.gt && f.eq)

/-- The address a fetch at `pc >= 254` reports: 256 at 254, 255 and 256, and `pc` itself above (R82, R160). -/
def fetchAbortAddr (pc : Nat) : Nat := max Config.memSize pc

/-- The cause of an abort is one the hardware raises, and fits the frozen pc (R160, R162). -/
def causeOk (s : State) : Bool :=
  match s.status with
  | .running | .halted => true
  | .aborted (.addressOutOfRange n) => decide (254 ≤ s.pc ∧ n = fetchAbortAddr s.pc)
  | .aborted (.registerIndexOutOfRange v) => decide (8 ≤ v.toNat)

/-- The invariant: memory in canonical form, pc at most 257 (R24), flags mutually exclusive (R26), and an abort's
cause one that the hardware raises (R160). -/
def State.Inv (s : State) : Prop :=
  s.mem.wf ∧ s.pc ≤ 257 ∧ s.fl.exclusive = true ∧ causeOk s = true

/-! ## What a step finds and leaves -/

/-- A running machine whose next fetch succeeds and gives these three bytes (R82). -/
def Fetches (s : State) (op a b : Byte) : Prop :=
  s.status = .running ∧ s.pc ≤ 253 ∧
    s.mem.get s.pc = op ∧ s.mem.get (s.pc + 1) = a ∧ s.mem.get (s.pc + 2) = b

/-- A running machine whose next fetch succeeds and decodes to `i` under the opcode map of `c` (R81, R84). -/
def Runs (c : Config) (s : State) (i : Instr) : Prop :=
  ∃ op a b, Fetches s op a b ∧ decode c op a b = .ok i

/-- Every register outside `rs` keeps its value. -/
def RegsKept (rs : List (Fin Config.numRegs)) (s t : State) : Prop := ∀ q, q ∉ rs → t.getReg q = s.getReg q

/-- Every byte of memory outside the addresses `ns` reads as before. -/
def MemKept (ns : List Nat) (s t : State) : Prop := ∀ n, n ∉ ns → memRead n t = memRead n s

/-- Flags, run status and output are as before. -/
def RestKept (s t : State) : Prop := t.fl = s.fl ∧ t.status = s.status ∧ t.out = s.out

/-! ## What an instruction touches, by form -/

/-- The register named by an operand byte that passes CHECK. -/
def regOf (v : Byte) (h : v.toNat < 8) : Fin Config.numRegs := ⟨v.toNat, h⟩

/-- The register an operand byte names, if it names one. -/
def regOf? (v : Byte) : List (Fin Config.numRegs) := if h : v.toNat < 8 then [regOf v h] else []

/-- The registers an instruction may write: its destination, and register 7 for the four stack instructions
(10_state.md R22, 41_alu.md R100). -/
def writtenRegs : Instr → List (Fin Config.numRegs)
  | .hlt | .prn _ | .jmp _ | .jeq _ | .jne _ | .cmp _ _ => []
  | .ret | .push _ | .call _ => [Config.spIndex]
  | .pop a => Config.spIndex :: regOf? a
  | .not a | .ldi a _ | .add a _ | .sub a _ | .mul a _ | .mod a _
  | .and a _ | .or a _ | .xor a _ | .shl a _ | .shr a _ => regOf? a

/-- The cells an instruction may write: the cell at the decremented sp, for PUSH and CALL (20_memory.md R43). -/
def writtenCells (i : Instr) (s : State) : List Nat :=
  match i with
  | .push _ | .call _ => [s.decSp.sp.toNat]
  | .hlt | .ret | .pop _ | .prn _ | .jmp _ | .jeq _ | .jne _ | .not _ | .ldi _ _ | .add _ _ | .sub _ _
  | .mul _ _ | .mod _ _ | .cmp _ _ | .and _ _ | .or _ _ | .xor _ _ | .shl _ _ | .shr _ _ => []

/-- The five control-transfer instructions (40_cycle.md R87). -/
def isControl : Instr → Bool
  | .call _ | .ret | .jmp _ | .jeq _ | .jne _ => true
  | .hlt | .push _ | .pop _ | .prn _ | .not _ | .ldi _ _ | .add _ _ | .sub _ _
  | .mul _ _ | .mod _ _ | .cmp _ _ | .and _ _ | .or _ _ | .xor _ _ | .shl _ _ | .shr _ _ => false

/-- The first register operand that fails CHECK, `a` before `b` (40_cycle.md R85). -/
def badOperand (i : Instr) : Option Byte := i.regOperands.find? fun v => !validIndex v

/-! ## An instruction's rule as a whole -/

/-- The default opcode byte of `m` is `byte` (30_encoding.md R66; log 1), and under every admissible opcode map the
opcode byte of `m` followed by `a` and `b` decodes to `i a b`: a byte that the instruction does not use is ignored
(R62, R65). -/
def EncodedBy (m : Mnemonic) (byte : Byte) (i : Byte → Byte → Instr) : Prop :=
  Config.default.opc m = byte ∧ ∀ c : Config, c.Valid → ∀ a b, decode c (c.opc m) a b = .ok (i a b)

/-- Executing `i` raises `RegisterIndexOutOfRange` with one of the bytes `vs`, of 8 or more (60_exceptions.md R160). -/
def RaisesIndex (i : Instr) (s : State) (vs : List Byte) : Prop :=
  ∃ t v, v ∈ vs ∧ 8 ≤ v.toNat ∧ exec i s = .next t ∧ t.status = .aborted (.registerIndexOutOfRange v)

/-- Executing `i` takes the abort for the register operand `v`: the status changes and nothing else (R85, R162). -/
def AbortsOn (i : Instr) (s : State) (v : Byte) : Prop :=
  exec i s = .next { s with status := .aborted (.registerIndexOutOfRange v) }

/-- The form of the rules of 41_alu.md for a two-register operation that writes `x[a]`: its encoding; with both
operands valid the instruction completes, `holds p q r` relates the old values p of x[a] and q of x[b] to the new
value r of x[a], pc moves by 3, and nothing else changes; an invalid operand raises. -/
def TwoRegisterRule (m : Mnemonic) (byte : Byte) (i : Byte → Byte → Instr) (holds : Byte → Byte → Byte → Prop) : Prop :=
  EncodedBy m byte i ∧ ∀ (s : State) (a b : Byte),
    (∀ (ha : a.toNat < 8) (hb : b.toNat < 8), ∃ t, exec (i a b) s = .next t ∧
      holds (s.getReg (regOf a ha)) (s.getReg (regOf b hb)) (t.getReg (regOf a ha)) ∧ t.pc = s.pc + 3 ∧
      RegsKept [regOf a ha] s t ∧ MemKept [] s t ∧ RestKept s t) ∧
    (8 ≤ a.toNat ∨ 8 ≤ b.toNat → RaisesIndex (i a b) s [a, b])

/-! ## Runs -/

/-- `t` is reached from `s` in some number of steps. -/
def Reaches (s t : State) : Prop := ∃ k, Host.Core.run core k s = .next t

/-- A run that ends cleanly, in `halted` (R89). Only such a final state may satisfy a claim's postcondition. -/
def EndsCleanly (s t : State) : Prop := Reaches s t ∧ t.status = .halted

/-- A run that fails: it reaches a fatal abort (R89, R163). -/
def Fails (s : State) : Prop := ∃ t c, Reaches s t ∧ t.status = .aborted c

/-- A safe run: it never aborts (R163: every claim about a program carries this as premise or conclusion). -/
def Safe (s : State) : Prop := ¬ Fails s

end Sys2Proof.Machine
end

