-- ==== Sys2Proof/Certificates/Slice0/Obligations.lean ====
section
/-! DEFINITION. The statements for the provers. Each docstring names the rule of spec/ it formalises, or says what it
rests on besides. `c` ranges over the admissible opcode maps where a statement does not depend on the default one. -/

open Sys2Proof Sys2Proof.Machine

/-! ## Reset and the image -/

/-- R190: what reset leaves in every piece of state. -/
def Obligations.ResetHoldsTheSpecValues : Prop :=
  (∀ i : Fin 8, State.reset.getReg i = if i = 7 then 0xF4 else 0) ∧
  State.reset.pc = 0 ∧ State.reset.fl = ⟨false, false, false⟩ ∧
  State.reset.status = .running ∧ State.reset.out = [] ∧
  ∀ n, n < 256 → memRead n State.reset = .ok 0

/-- R33, R191, R192: the image's bytes stand in memory from address 0 upward and every other cell is 0; the loader
touches nothing but memory. Images of at most 256 bytes: what a loader does with more is not stated (log 12). The clause
`mem.wf` is no rule of the spec: it says that the model's own list form of memory is canonical (log 16). -/
def Obligations.ImageStandsInMemory : Prop :=
  ∀ image : List Byte, image.length ≤ 256 →
    (∀ n, n < 256 → memRead n (State.boot image) = .ok (image.getD n 0)) ∧
    (∀ n, 256 ≤ n → memRead n (State.boot image) = .error (.addressOutOfRange n)) ∧
    (State.boot image).mem.wf ∧ RegsKept [] State.reset (State.boot image) ∧
    (State.boot image).pc = 0 ∧ RestKept State.reset (State.boot image)

/-! ## Memory -/

/-- R42 (and R41 for the reads it is observed by): a write below 256 sets its cell and changes nothing else; at 256
and above it raises. -/
def Obligations.WriteSetsOneCellOrRaises : Prop :=
  ∀ (s : State) (n : Nat) (v : Byte), s.mem.wf →
    (n < 256 → ∃ t, memWrite n v s = .ok t ∧ memRead n t = .ok v ∧ MemKept [n] s t ∧
      RegsKept [] s t ∧ t.pc = s.pc ∧ RestKept s t) ∧
    (256 ≤ n → memWrite n v s = .error (.addressOutOfRange n) ∧ memRead n s = .error (.addressOutOfRange n))

/-- The model's own representation (log 16): memories in canonical form that read alike in all 256 cells of R40 are
equal data. -/
def Obligations.MemoriesThatReadAlikeAreEqual : Prop :=
  ∀ m k : Memory, m.wf → k.wf → (∀ n, n < 256 → m.get n = k.get n) → m = k

/-! ## Encoding -/

/-- R60 to R67: under every admissible opcode map, the decoder reads every instruction back from its encoding, with
every operand byte at every value and whatever bytes follow it in memory. -/
def Obligations.DecodeReadsBackEveryEncoding : Prop :=
  ∀ c : Config, c.Valid → ∀ (i : Instr) (rest more : List Byte) (op a b : Byte),
    encode c i ++ rest = op :: a :: b :: more → decode c op a b = .ok i

/-- R60, R61: three bytes that decode begin with the encoding of what they decode to, and its length is the value of
the opcode's two high bits plus one. -/
def Obligations.DecodedBytesBeginWithTheEncoding : Prop :=
  ∀ c : Config, c.Valid → ∀ (op a b : Byte) (i : Instr), decode c op a b = .ok i →
    encode c i <+: [op, a, b] ∧ (encode c i).length = op.toNat / 64 + 1

/-- Words of 95_test_vectors.md, table V-ENC, under the default opcode table (log 1). -/
def Obligations.WordsWrittenOutDecode : Prop :=
  decode Config.default 0b00000001 0xFF 0xFF = .ok .hlt ∧
  decode Config.default 0b00010001 0x00 0x00 = .ok .ret ∧
  decode Config.default 0b01000101 0b00000010 0x47 = .ok (.push 2) ∧
  decode Config.default 0b01101001 0b00000010 0xFF = .ok (.not 2) ∧
  decode Config.default 0b10000010 0b00000000 0b00001000 = .ok (.ldi 0 8) ∧
  decode Config.default 0b10100001 0b00000001 0b00000010 = .ok (.sub 1 2) ∧
  decode Config.default 0b01010110 0b00000100 0x47 = .ok (.jne 4) ∧
  decode Config.default 0b00000010 0 0 = .error (.unassigned 2) ∧
  decode Config.default 0b10000011 0 0 = .error (.unassigned 0x83)

/-- R68: an opcode is unassigned exactly when it is no value of the opcode map, whatever the operand bytes; under the
default table (log 1) the unassigned opcodes per value of the two high bits are 62, 56, 53 and 64. -/
def Obligations.UnassignedIsExactlyOutsideTheTable : Prop :=
  (∀ (c : Config) (op a b : Byte), decode c op a b = .error (.unassigned op) ↔ ∀ m, c.opc m ≠ op) ∧
  ∀ k : Fin 4, ((List.range 256).filter fun n =>
      decide (n / 64 = k.val) && (Config.default.lookup (BitVec.ofNat 8 n)).isNone).length =
    [62, 56, 53, 64].getD k.val 0

/-- R62, R67: no admissible opcode map assigns an opcode with both high bits set (format F3). -/
def Obligations.NoAssignedOpcodeHasThreeOperands : Prop :=
  ∀ c : Config, c.Valid → ∀ m, (c.opc m).toNat < 0xC0

/-- R65: the operand bytes an instruction does not use have no effect on what is decoded. -/
def Obligations.UnusedOperandBytesAreIgnored : Prop :=
  ∀ c : Config, c.Valid → ∀ (m : Mnemonic) (a b a' b' : Byte),
    (m.operandCount ≤ 1 → decode c (c.opc m) a b = decode c (c.opc m) a b') ∧
    (m.operandCount = 0 → decode c (c.opc m) a b = decode c (c.opc m) a' b')

/-! ## The cycle -/

/-- R81, R84: while running, with the fetch in range, a step is the decoded instruction executed on that very state;
nothing is added around it, since each instruction moves pc itself (R86, R87). -/
def Obligations.StepRunsTheDecodedInstruction : Prop :=
  (∀ (c : Config) (s : State) (i : Instr), Runs c s i → stepWith c s = exec i s) ∧
  ∀ (s : State) (i : Instr), Runs Config.default s i → step s = exec i s

/-- R88, R166: an unassigned opcode moves pc by the length in its two high bits and does nothing else. Rests on the
spec's own decision D5 (log 5). -/
def Obligations.UnassignedOpcodeOnlyAdvances : Prop :=
  ∀ (c : Config) (s : State) (op a b : Byte), Fetches s op a b → (∀ m, c.opc m ≠ op) →
    stepWith c s = .next { s with pc := s.pc + (op.toNat / 64 + 1) }

/-- R82, R160, R162: a fetch at pc >= 254 aborts, with the first address of 256 or more, and changes nothing but the
status. Rests on the spec's own decisions D4 and D10 (log 4, log 8). -/
def Obligations.FetchPastTheEndAborts : Prop :=
  ∀ (c : Config) (s : State), s.status = .running → 254 ≤ s.pc →
    stepWith c s = .next { s with status := .aborted (.addressOutOfRange (fetchAbortAddr s.pc)) } ∧
    (s.pc ≤ 256 → fetchAbortAddr s.pc = 256) ∧ (256 ≤ s.pc → fetchAbortAddr s.pc = s.pc)

/-- R80: exactly a running machine takes a step. -/
def Obligations.ExactlyARunningMachineSteps : Prop :=
  ∀ (c : Config) (s : State), (∃ t, stepWith c s = .next t) ↔ s.status = .running

/-- R163 and log 8, log 13 (the model's choice of names): from `aborted` a step answers a fault with the cause, from
`halted` the refusal `halted`. -/
def Obligations.TerminalStatesAnswerByName : Prop :=
  ∀ (c : Config) (s : State),
    (∀ cause, s.status = .aborted cause → stepWith c s = .fault (.aborted cause)) ∧
    (s.status = .halted → stepWith c s = .refused .halted)

/-- R86, R83: after an assigned instruction that is not a taken control transfer, and after an unassigned opcode, pc
has moved by the value of the opcode's two high bits plus one. -/
def Obligations.PcAdvancesByTheOpcodesLength : Prop :=
  ∀ (c : Config), c.Valid → ∀ (s t : State), stepWith c s = .next t → (∀ cause, t.status ≠ .aborted cause) →
    (∀ i, Runs c s i → isControl i = true → (∃ a, i = .jeq a ∧ s.fl.eq = false) ∨ (∃ a, i = .jne a ∧ s.fl.eq = true)) →
    t.pc = s.pc + ((s.mem.get s.pc).toNat / 64 + 1)

/-! ## Operand checks and aborts -/

/-- R85, R162: the first register operand of 8 or more, `a` before `b`, aborts with that byte and no other effect, JEQ
and JNE whether taken or not. Rests on the spec's own decisions D8 and D10 (log 7, log 8). -/
def Obligations.FirstBadOperandAborts : Prop :=
  ∀ (i : Instr) (s : State) (v : Byte), badOperand i = some v → AbortsOn i s v

/-- R85, R160: a well-formed instruction always completes, and never with an abort: its status afterwards is the one
before, or `halted`. -/
def Obligations.WellFormedInstructionsComplete : Prop :=
  ∀ (i : Instr) (s : State), i.wf = true →
    ∃ t, exec i s = .next t ∧ (t.status = s.status ∨ t.status = .halted)

/-- R162: a step that aborts changes the status and nothing else. Rests on the spec's own decisions D8 and D10
(log 8). -/
def Obligations.AnAbortingStepChangesOnlyTheStatus : Prop :=
  ∀ (c : Config) (s t : State) (cause : Cause), stepWith c s = .next t → t.status = .aborted cause →
    t = { s with status := .aborted cause }

/-- R167, R160, R89: the complete list of the ways a step ends a run: HLT, MOD with valid operands and a zero divisor,
a fetch beyond address 255, a register operand over 7. Rests on the spec's own decisions D4 and D8 (log 4, log 7). -/
def Obligations.EveryWayARunStops : Prop :=
  ∀ (c : Config) (s t : State), stepWith c s = .next t →
    (t.status = .halted ↔ (Runs c s .hlt ∨ ∃ (a b : Byte) (_ : a.toNat < 8) (hb : b.toNat < 8),
      Runs c s (.mod a b) ∧ s.getReg (regOf b hb) = 0)) ∧
    (∀ n, t.status = .aborted (.addressOutOfRange n) ↔ (254 ≤ s.pc ∧ n = fetchAbortAddr s.pc)) ∧
    (∀ v, t.status = .aborted (.registerIndexOutOfRange v) ↔ ∃ i, Runs c s i ∧ badOperand i = some v)

/-- R169: the order of conditions, on MOD, where all of them can apply at once: address, operand `a`, operand `b`,
zero divisor. Rests on the spec's own decision D8 (log 7). -/
def Obligations.ConditionsAreReportedInOrder : Prop :=
  ∀ (c : Config), c.Valid → ∀ (s : State), s.status = .running →
    (254 ≤ s.pc →
      stepWith c s = .next { s with status := .aborted (.addressOutOfRange (fetchAbortAddr s.pc)) }) ∧
    ∀ a b, Fetches s (c.opc .mod) a b →
      (8 ≤ a.toNat → stepWith c s = .next { s with status := .aborted (.registerIndexOutOfRange a) }) ∧
      (a.toNat < 8 → 8 ≤ b.toNat →
        stepWith c s = .next { s with status := .aborted (.registerIndexOutOfRange b) }) ∧
      (∀ (_ : a.toNat < 8) (hb : b.toNat < 8), s.getReg (regOf b hb) = 0 →
        ∃ t, stepWith c s = .next t ∧ t.status = .halted ∧ t.out = s.out ++ [.divZeroDiag])

/-! ## The ALU instructions -/

/-- R101, R102, R103: ADD, SUB and MUL modulo 256. -/
def Obligations.AddSubMulAreModulo256 : Prop :=
  TwoRegisterRule .add 0xA0 .add (fun p q r => r.toNat = (p.toNat + q.toNat) % 256) ∧
  TwoRegisterRule .sub 0xA1 .sub (fun p q r => r.toNat = (p.toNat + 256 - q.toNat) % 256) ∧
  TwoRegisterRule .mul 0xA2 .mul (fun p q r => r.toNat = (p.toNat * q.toNat) % 256)

/-- R105, R106, R107: AND, OR and XOR, bit by bit, with write-back. -/
def Obligations.AndOrXorActBitByBit : Prop :=
  TwoRegisterRule .and 0xA8 .and (fun p q r => ∀ k, k < 8 → r.getLsbD k = (p.getLsbD k && q.getLsbD k)) ∧
  TwoRegisterRule .or 0xAA .or (fun p q r => ∀ k, k < 8 → r.getLsbD k = (p.getLsbD k || q.getLsbD k)) ∧
  TwoRegisterRule .xor 0xAB .xor (fun p q r => ∀ k, k < 8 → r.getLsbD k = (p.getLsbD k ^^ q.getLsbD k))

/-- R109, R110: SHL and SHR by the whole byte, zeros entering. Rests on the spec's own decision D12 for 8 places and
more (log 9). -/
def Obligations.ShiftsTakeTheWholeByte : Prop :=
  TwoRegisterRule .shl 0xAC .shl
    (fun p q r => r.toNat = (p.toNat * 2 ^ q.toNat) % 256 ∧ (8 ≤ q.toNat → r = 0)) ∧
  TwoRegisterRule .shr 0xAD .shr
    (fun p q r => r.toNat = p.toNat / 2 ^ q.toNat ∧ (8 ≤ q.toNat → r = 0))

/-- R108: NOT writes 255 - x[a], is two bytes long and does not look at `b`. Rests on the spec's own decisions D3 and
D13 (log 2, log 9). -/
def Obligations.NotInvertsTheByte : Prop :=
  EncodedBy .not 0x69 (fun a _ => .not a) ∧
  ∀ (s : State) (a : Byte),
    (∀ ha : a.toNat < 8, ∃ t, exec (.not a) s = .next t ∧
      (t.getReg (regOf a ha)).toNat = 255 - (s.getReg (regOf a ha)).toNat ∧ t.pc = s.pc + 2 ∧
      RegsKept [regOf a ha] s t ∧ MemKept [] s t ∧ RestKept s t) ∧
    (8 ≤ a.toNat → AbortsOn (.not a) s a)

/-- R104: CMP writes all three flags from the unsigned comparison, whatever they were, and no register. Rests on the
spec's own decision D14 (log 9). -/
def Obligations.CmpSetsExactlyOneFlag : Prop :=
  EncodedBy .cmp 0xA7 .cmp ∧
  ∀ (s : State) (a b : Byte),
    (∀ (ha : a.toNat < 8) (hb : b.toNat < 8), ∃ t, exec (.cmp a b) s = .next t ∧
      (t.fl.lt = true ↔ (s.getReg (regOf a ha)).toNat < (s.getReg (regOf b hb)).toNat) ∧
      (t.fl.gt = true ↔ (s.getReg (regOf b hb)).toNat < (s.getReg (regOf a ha)).toNat) ∧
      (t.fl.eq = true ↔ s.getReg (regOf a ha) = s.getReg (regOf b hb)) ∧
      (t.fl = ⟨true, false, false⟩ ∨ t.fl = ⟨false, true, false⟩ ∨ t.fl = ⟨false, false, true⟩) ∧
      t.pc = s.pc + 3 ∧ RegsKept [] s t ∧ MemKept [] s t ∧ t.status = s.status ∧ t.out = s.out) ∧
    (8 ≤ a.toNat → AbortsOn (.cmp a b) s a) ∧
    (a.toNat < 8 → 8 ≤ b.toNat → AbortsOn (.cmp a b) s b)

/-- R111, non-zero divisor: MOD writes the unsigned remainder. Rests on the spec's own decisions D8 for the moment of
the check and D15 (log 7, log 9). -/
def Obligations.ModGivesTheRemainder : Prop :=
  EncodedBy .mod 0xA4 .mod ∧
  ∀ (s : State) (a b : Byte),
    (∀ (ha : a.toNat < 8) (hb : b.toNat < 8), s.getReg (regOf b hb) ≠ 0 → ∃ t, exec (.mod a b) s = .next t ∧
      (t.getReg (regOf a ha)).toNat = (s.getReg (regOf a ha)).toNat % (s.getReg (regOf b hb)).toNat ∧
      (t.getReg (regOf a ha)).toNat < (s.getReg (regOf b hb)).toNat ∧ t.pc = s.pc + 3 ∧
      RegsKept [regOf a ha] s t ∧ MemKept [] s t ∧ RestKept s t) ∧
    (8 ≤ a.toNat → AbortsOn (.mod a b) s a) ∧
    (a.toNat < 8 → 8 ≤ b.toNat → AbortsOn (.mod a b) s b)

/-- R111, R165, zero divisor: `DivZeroDiag`, status halted, every register, flag and memory cell unchanged, pc moved by
3. That pc moves rests on the spec's own decision D7 (log 6). -/
def Obligations.ModByZeroHaltsGracefully : Prop :=
  ∀ (s : State) (a b : Byte) (_ : a.toNat < 8) (hb : b.toNat < 8), s.getReg (regOf b hb) = 0 →
    ∃ t, exec (.mod a b) s = .next t ∧ t.out = s.out ++ [.divZeroDiag] ∧ t.status = .halted ∧
      RegsKept [] s t ∧ t.fl = s.fl ∧ MemKept [] s t ∧ t.pc = s.pc + 3

/-! ## Load, print, halt -/

/-- R120: LDI. -/
def Obligations.LdiLoadsTheImmediate : Prop :=
  EncodedBy .ldi 0x82 .ldi ∧
  ∀ (s : State) (a b : Byte),
    (∀ ha : a.toNat < 8, ∃ t, exec (.ldi a b) s = .next t ∧ t.getReg (regOf a ha) = b ∧ t.pc = s.pc + 3 ∧
      RegsKept [regOf a ha] s t ∧ MemKept [] s t ∧ RestKept s t) ∧
    (8 ≤ a.toNat → RaisesIndex (.ldi a b) s [a])

/-- R121: PRN. -/
def Obligations.PrnAppendsOnePrintEvent : Prop :=
  EncodedBy .prn 0x47 (fun a _ => .prn a) ∧
  ∀ (s : State) (a : Byte),
    (∀ ha : a.toNat < 8, ∃ t, exec (.prn a) s = .next t ∧
      t.out = s.out ++ [.print (s.getReg (regOf a ha))] ∧ t.pc = s.pc + 2 ∧
      RegsKept [] s t ∧ MemKept [] s t ∧ t.fl = s.fl ∧ t.status = s.status) ∧
    (8 ≤ a.toNat → RaisesIndex (.prn a) s [a])

/-- R122: HLT. That pc moves by 1 rests on the spec's own decision D7 (log 6). -/
def Obligations.HltHaltsAndAdvances : Prop :=
  EncodedBy .hlt 0x01 (fun _ _ => .hlt) ∧
  ∀ s : State, ∃ t, exec .hlt s = .next t ∧ t.status = .halted ∧ t.pc = s.pc + 1 ∧
    RegsKept [] s t ∧ MemKept [] s t ∧ t.fl = s.fl ∧ t.out = s.out

/-! ## The stack -/

/-- R130: PUSH, register 7 as its operand included: the byte stored is x[a] as it is after the decrement. The premise
is the canonical form of memory, which every step keeps (StepKeepsTheInvariant). -/
def Obligations.PushDecrementsThenStores : Prop :=
  EncodedBy .push 0x45 (fun a _ => .push a) ∧
  ∀ (s : State) (a : Byte), s.mem.wf →
    (∀ ha : a.toNat < 8, ∃ t, exec (.push a) s = .next t ∧
      t.sp.toNat = (s.sp.toNat + 255) % 256 ∧
      memRead ((s.sp.toNat + 255) % 256) t = .ok (if regOf a ha = 7 then t.sp else s.getReg (regOf a ha)) ∧
      MemKept [(s.sp.toNat + 255) % 256] s t ∧ RegsKept [7] s t ∧ t.pc = s.pc + 2 ∧ RestKept s t) ∧
    (8 ≤ a.toNat → AbortsOn (.push a) s a)

/-- R131: POP, register 7 as its operand included: x[7] is incremented after x[a] is written. -/
def Obligations.PopLoadsThenIncrements : Prop :=
  EncodedBy .pop 0x46 (fun a _ => .pop a) ∧
  ∀ (s : State) (a : Byte),
    (∀ ha : a.toNat < 8, ∃ t v, exec (.pop a) s = .next t ∧ memRead s.sp.toNat s = .ok v ∧
      (regOf a ha ≠ 7 → t.getReg (regOf a ha) = v ∧ t.sp.toNat = (s.sp.toNat + 1) % 256) ∧
      (regOf a ha = 7 → t.sp.toNat = (v.toNat + 1) % 256) ∧
      MemKept [] s t ∧ RegsKept [regOf a ha, 7] s t ∧ t.pc = s.pc + 2 ∧ RestKept s t) ∧
    (8 ≤ a.toNat → AbortsOn (.pop a) s a)

/-- The source's property quoted in R132 item 2: PUSH then POP gives the value back, restores the stack pointer, and
leaves the pushed byte in memory. Operands other than register 7, as there. -/
def Obligations.PushThenPopRoundTrips : Prop :=
  ∀ (s : State) (a b : Byte) (ha : a.toNat < 8) (hb : b.toNat < 8), s.mem.wf →
    regOf a ha ≠ 7 → regOf b hb ≠ 7 →
    ∃ t u, exec (.push a) s = .next t ∧ exec (.pop b) t = .next u ∧
      u.getReg (regOf b hb) = s.getReg (regOf a ha) ∧ u.sp = s.sp ∧
      memRead ((s.sp.toNat + 255) % 256) u = .ok (s.getReg (regOf a ha)) ∧
      RegsKept [regOf b hb] s u ∧ MemKept [(s.sp.toNat + 255) % 256] s u ∧ RestKept s u

/-- R52, R194: a byte that PUSH or CALL stores where the very next fetch reads is what that fetch sees, as the opcode
byte (k = 0) or as a candidate operand (k = 1, 2). Register 7 as the operand is included, which rests on the spec's own
decision D17 (log 10): PUSH R7 stores the new sp, and the fetch after CALL R7 reads the return address as its opcode. -/
def Obligations.NextFetchSeesThePushedByte : Prop :=
  ∀ (s : State) (a : Byte) (ha : a.toNat < 8) (k : Nat), s.mem.wf → k < 3 →
    (s.pc ≤ 251 → (s.sp.toNat + 255) % 256 = s.pc + 2 + k →
      ∃ t w, exec (.push a) s = .next t ∧ fetch t = .ok w ∧
        [w.1, w.2.1, w.2.2][k]? = some (if regOf a ha = 7 then t.sp else s.getReg (regOf a ha))) ∧
    ∀ target, target = (if regOf a ha = 7 then (s.sp.toNat + 255) % 256 else (s.getReg (regOf a ha)).toNat) →
      s.pc ≤ 253 → target ≤ 253 → (s.sp.toNat + 255) % 256 = target + k →
      ∃ t w v, exec (.call a) s = .next t ∧ t.pc = target ∧ fetch t = .ok w ∧
        [w.1, w.2.1, w.2.2][k]? = some v ∧ v.toNat = s.pc + 2

/-! ## Control transfer -/

/-- R141: CALL, register 7 as its operand included. pc <= 253 is where a CALL can execute (R82), so that pc + 2 fits
the byte pushed. Rests on the spec's own decisions D8, D11 and D17 (log 3, log 7, log 10). -/
def Obligations.CallPushesTheReturnAddress : Prop :=
  EncodedBy .call 0x50 (fun a _ => .call a) ∧
  ∀ (s : State) (a : Byte), s.mem.wf →
    (∀ ha : a.toNat < 8, s.pc ≤ 253 → ∃ t v, exec (.call a) s = .next t ∧
      t.sp.toNat = (s.sp.toNat + 255) % 256 ∧
      memRead ((s.sp.toNat + 255) % 256) t = .ok v ∧ v.toNat = s.pc + 2 ∧
      t.pc = (if regOf a ha = 7 then t.sp else s.getReg (regOf a ha)).toNat ∧
      MemKept [(s.sp.toNat + 255) % 256] s t ∧ RegsKept [7] s t ∧ RestKept s t) ∧
    (8 ≤ a.toNat → AbortsOn (.call a) s a)

/-- R142: RET. -/
def Obligations.RetPopsIntoPc : Prop :=
  EncodedBy .ret 0x11 (fun _ _ => .ret) ∧
  ∀ s : State, ∃ t v, exec .ret s = .next t ∧ memRead s.sp.toNat s = .ok v ∧ t.pc = v.toNat ∧
    t.sp.toNat = (s.sp.toNat + 1) % 256 ∧ MemKept [] s t ∧ RegsKept [7] s t ∧ RestKept s t

/-- R143: JMP. -/
def Obligations.JmpSetsPc : Prop :=
  EncodedBy .jmp 0x54 (fun a _ => .jmp a) ∧
  ∀ (s : State) (a : Byte),
    (∀ ha : a.toNat < 8, ∃ t, exec (.jmp a) s = .next t ∧ t.pc = (s.getReg (regOf a ha)).toNat ∧
      RegsKept [] s t ∧ MemKept [] s t ∧ RestKept s t) ∧
    (8 ≤ a.toNat → RaisesIndex (.jmp a) s [a])

/-- R144, R145: JEQ is taken exactly when EQ is set, JNE exactly when it is clear; the operand is checked either way,
by the spec's own decision D8 (log 7). -/
def Obligations.ConditionalJumpsFollowEq : Prop :=
  EncodedBy .jeq 0x55 (fun a _ => .jeq a) ∧ EncodedBy .jne 0x56 (fun a _ => .jne a) ∧
  ∀ (s : State) (a : Byte),
    (∀ ha : a.toNat < 8, ∃ t u, exec (.jeq a) s = .next t ∧ exec (.jne a) s = .next u ∧
      t.pc = (if s.fl.eq = true then (s.getReg (regOf a ha)).toNat else s.pc + 2) ∧
      u.pc = (if s.fl.eq = false then (s.getReg (regOf a ha)).toNat else s.pc + 2) ∧
      RegsKept [] s t ∧ MemKept [] s t ∧ RestKept s t ∧ RegsKept [] s u ∧ MemKept [] s u ∧ RestKept s u) ∧
    (8 ≤ a.toNat → AbortsOn (.jeq a) s a ∧ AbortsOn (.jne a) s a)

/-- The source's property quoted in R142: a CALL to X followed immediately by the RET at X resumes at the instruction
after the CALL, with the stack pointer back. The premises are those under which both execute and the pushed byte does
not overwrite the RET; CALL R7 always overwrites it (R141). -/
def Obligations.CallThenRetReturns : Prop :=
  ∀ (c : Config), c.Valid → ∀ (s : State) (a b : Byte) (ha : a.toNat < 8), s.mem.wf →
    Fetches s (c.opc .call) a b → regOf a ha ≠ 7 →
    (s.getReg (regOf a ha)).toNat ≤ 253 → (s.getReg (regOf a ha)).toNat ≠ (s.sp.toNat + 255) % 256 →
    s.mem.get (s.getReg (regOf a ha)).toNat = c.opc .ret →
    ∃ t u, stepWith c s = .next t ∧ stepWith c t = .next u ∧
      t.pc = (s.getReg (regOf a ha)).toNat ∧ u.pc = s.pc + 2 ∧ u.sp = s.sp ∧
      RegsKept [] s u ∧ MemKept [(s.sp.toNat + 255) % 256] s u ∧ RestKept s u

/-! ## Rules about the whole machine -/

/-- R27: only CMP changes a flag, and it writes all three, so that what they were has no influence; only JEQ and JNE read the flags, and of them only EQ: with the flags replaced by
any others (that agree on EQ, for JEQ and JNE) an instruction gives the same next state but for the flags. -/
def Obligations.FlagsAreCmpsAndOnlyEqIsRead : Prop :=
  (∀ (c : Config) (s t : State), stepWith c s = .next t → t.fl ≠ s.fl → ∃ a b, Runs c s (.cmp a b)) ∧
  (∀ (i : Instr) (s t : State) (f : Flags), exec i s = .next t →
    ((∃ a, i = .jeq a ∨ i = .jne a) → f.eq = s.fl.eq) →
    ∃ u, exec i { s with fl := f } = .next u ∧ ({ u with fl := t.fl } : State) = t) ∧
  ∀ (s t : State) (f : Flags) (a b : Byte), badOperand (.cmp a b) = none → exec (.cmp a b) s = .next t →
    exec (.cmp a b) { s with fl := f } = .next t

/-- R21, R22, R100: an instruction writes no register but its destination and, for PUSH, POP, CALL and RET,
register 7. -/
def Obligations.OnlyDestinationRegistersChange : Prop :=
  ∀ (i : Instr) (s t : State), exec i s = .next t → RegsKept (writtenRegs i) s t

/-- R43: no instruction changes memory but PUSH and CALL, and they only the cell at the decremented sp. -/
def Obligations.OnlyPushAndCallWriteMemory : Prop :=
  ∀ (i : Instr) (s t : State), exec i s = .next t → MemKept (writtenCells i s) s t

/-- R31: a step appends at most one event, `Print` of the register PRN names, or `DivZeroDiag` of a MOD with valid
operands and a zero divisor, which halts. -/
def Obligations.OnlyPrnAndZeroDivisorsEmit : Prop :=
  ∀ (c : Config) (s t : State), stepWith c s = .next t → t.out = s.out ∨
    (∃ (a : Byte) (ha : a.toNat < 8), Runs c s (.prn a) ∧ t.out = s.out ++ [.print (s.getReg (regOf a ha))]) ∨
    (∃ (a b : Byte) (_ : a.toNat < 8) (hb : b.toNat < 8), Runs c s (.mod a b) ∧ s.getReg (regOf b hb) = 0 ∧
      t.out = s.out ++ [.divZeroDiag] ∧ t.status = .halted)

/-- R40, R24, R26, R160: every step keeps the invariant: memory in canonical form, pc at most 257, flags mutually
exclusive, an abort's cause one the hardware raises. pc's bound rests on the spec's own decision D6 (log 4); the form of
memory is the model's own (log 16). -/
def Obligations.StepKeepsTheInvariant : Prop :=
  ∀ (c : Config) (s t : State), s.Inv → stepWith c s = .next t → t.Inv

/-- The invariant holds after reset (R190) and with every list of bytes loaded. The loaded clause is the model's choice
in two ways: R192 stops at images of 256 bytes, and that the bytes past 256 are dropped is log 12; the form of memory
that the invariant speaks of is log 16. -/
def Obligations.ResetHasTheInvariant : Prop :=
  State.reset.Inv ∧ ∀ image : List Byte, (State.boot image).Inv

/-- R89, R192: a run stops nowhere but in `halted` or `aborted`: if `k` steps from `s` cannot all be taken, some
earlier state of the run has one of those two statuses. -/
def Obligations.RunsStopOnlyHaltedOrAborted : Prop :=
  ∀ (k : Nat) (s : State), (∀ t, Host.Core.run core k s ≠ .next t) →
    ∃ j t, j < k ∧ Host.Core.run core j s = .next t ∧ (t.status = .halted ∨ ∃ cause, t.status = .aborted cause)

/-- R31, R162: output is append-only along every run: whatever was printed stays printed, an abort included. -/
def Obligations.OutputOnlyGrowsAlongARun : Prop :=
  ∀ s t : State, Reaches s t → s.out <+: t.out

/-- Of the model's interface (log 12): an instruction of the opcode table placed where the next step fetches is what
the next step runs. -/
def Obligations.PlacedInstructionRunsNext : Prop :=
  ∀ (s : State) (nbits w : Nat) (i : Instr), s.mem.wf → s.status = .running → s.pc ≤ 253 →
    decodeTableWord nbits w = some i →
    Runs Config.default (s.withFetchWord nbits w) i ∧ step (s.withFetchWord nbits w) = exec i (s.withFetchWord nbits w)
end

