-- ==== Sys2Proof/Laws/Decode.lean ====
section
/-! SUPPORT. The opcode map: lookup finds exactly the assigned opcodes, the default map is admissible, and what the
decoder can answer. -/

namespace Sys2Proof

theorem Mnemonic.mem_all (m : Mnemonic) : m ∈ Mnemonic.all := by cases m <;> decide

/-- The default opcode map meets the constraints of R67. -/
theorem Config.default_valid : Config.default.Valid := by
  have inj : ∀ m ∈ Mnemonic.all, ∀ n ∈ Mnemonic.all, defaultOpc m = defaultOpc n → m = n := by decide
  have cnt : ∀ m ∈ Mnemonic.all, opcodeCount (defaultOpc m) = m.operandCount := by decide
  exact ⟨fun m n => inj m m.mem_all n n.mem_all, fun m => cnt m m.mem_all⟩

theorem Config.lookup_some {c : Config} {op : Byte} {m : Mnemonic} (h : c.lookup op = some m) : c.opc m = op := by
  simpa using List.find?_some h

theorem Config.lookup_opc {c : Config} (hc : c.Valid) (m : Mnemonic) : c.lookup (c.opc m) = some m := by
  cases h : c.lookup (c.opc m) with
  | none =>
    have := List.find?_eq_none.1 h m m.mem_all
    simp at this
  | some n => rw [hc.1 n m (lookup_some h)]

theorem Config.lookup_none {c : Config} {op : Byte} : c.lookup op = none ↔ ∀ m, c.opc m ≠ op := by
  simp only [lookup, List.find?_eq_none, beq_iff_eq]
  exact ⟨fun h m => h m m.mem_all, fun h m _ => h m⟩

theorem Instr.mnemonic_build (m : Mnemonic) (a b : Byte) : (Instr.build m a b).mnemonic = m := by cases m <;> rfl

/-- What the decoder can answer. -/
theorem decode_cases (c : Config) (op a b : Byte) :
    (∃ m, c.opc m = op ∧ decode c op a b = .ok (Instr.build m a b)) ∨
      ((∀ m, c.opc m ≠ op) ∧ decode c op a b = .error (.unassigned op)) := by
  cases h : c.lookup op with
  | some m => exact .inl ⟨m, Config.lookup_some h, by simp only [decode, h]⟩
  | none => exact .inr ⟨Config.lookup_none.1 h, by simp only [decode, h]⟩

/-- An assigned opcode byte decodes to its instruction, whatever the operand bytes. -/
theorem decode_opc {c : Config} (hc : c.Valid) (m : Mnemonic) (a b : Byte) :
    decode c (c.opc m) a b = .ok (Instr.build m a b) := by
  simp only [decode, Config.lookup_opc hc]

/-- The opcode byte of an instruction that was decoded (R84). -/
theorem decode_ok_opcode {c : Config} {op a b : Byte} {i : Instr} (h : decode c op a b = .ok i) :
    c.opc i.mnemonic = op := by
  rcases decode_cases c op a b with ⟨m, hm, hd⟩ | ⟨-, hd⟩
  · rw [hd] at h
    cases h
    rw [Instr.mnemonic_build, hm]
  · rw [hd] at h
    cases h

end Sys2Proof
end

