-- ==== Sys2Proof/Laws/Memory.lean ====
section
/-! SUPPORT. Memory: read after write, canonical form kept by every memory operation, equal reads give equal data. -/

namespace Sys2Proof.Machine.Memory

/-! ## Read after write -/

@[simp] theorem get_nil (n : Nat) : get [] n = unlisted := rfl

/-- An address below every listed one reads as unlisted. -/
theorem get_of_lt {m : Memory} {n : Nat} (h : ∀ p ∈ m, n < p.1) : get m n = unlisted := by
  induction m with
  | nil => rfl
  | cons p rest ih =>
    have hp := h p (by simp)
    simp only [get]
    rw [if_neg (by omega)]
    exact ih fun q hq => h q (by simp [hq])

theorem get_set_self {m : Memory} (hm : m.wf) (n : Nat) (v : Byte) : get (set m n v) n = v := by
  induction m with
  | nil => by_cases hv : v = unlisted <;> simp [set, get, hv]
  | cons p rest ih =>
    obtain ⟨hsort, hall⟩ := hm
    rw [List.pairwise_cons] at hsort
    have hrest : Memory.wf rest := ⟨hsort.2, fun q hq => hall q (by simp [hq])⟩
    simp only [set]
    split
    · next hlt =>
      split
      · next hv =>
        rw [get_of_lt, hv]
        intro q hq
        rcases List.mem_cons.1 hq with rfl | hq
        · exact hlt
        · exact lt_trans hlt (hsort.1 q hq)
      · simp [get]
    · split
      · next heq =>
        split
        · next hv =>
          rw [get_of_lt, hv]
          exact fun q hq => heq ▸ hsort.1 q hq
        · simp [get]
      · next hne => simp [get, hne, ih hrest]

theorem get_set_other {m : Memory} {n k : Nat} (v : Byte) (h : k ≠ n) : get (set m n v) k = get m k := by
  induction m with
  | nil => by_cases hv : v = unlisted <;> simp [set, get, hv, h]
  | cons p rest ih =>
    simp only [set]
    split
    · split
      · rfl
      · simp [get, h]
    · split
      · next heq => split <;> simp [get, ← heq, h]
      · simp [get, ih]

/-! ## Canonical form -/

/-- Writing lists no address but the old ones and the written one. -/
theorem mem_set {m : Memory} {n : Nat} {v : Byte} {p : Host.Cell} (h : p ∈ set m n v) :
    p ∈ m ∨ (p = (n, v) ∧ v ≠ unlisted) := by
  induction m with
  | nil =>
    by_cases hv : v = unlisted
    · simp [set, hv] at h
    · simp only [set, hv, if_false, List.mem_singleton] at h
      exact .inr ⟨h, hv⟩
  | cons q rest ih =>
    simp only [set] at h
    split at h
    · split at h
      · exact .inl h
      · next hv =>
        rcases List.mem_cons.1 h with h | h
        · exact .inr ⟨h, hv⟩
        · exact .inl h
    · split at h
      · split at h
        · exact .inl (by simp [h])
        · next hv =>
          rcases List.mem_cons.1 h with h | h
          · exact .inr ⟨h, hv⟩
          · exact .inl (by simp [h])
      · rcases List.mem_cons.1 h with h | h
        · exact .inl (by simp [h])
        · rcases ih h with h | h
          · exact .inl (by simp [h])
          · exact .inr h

theorem wf_nil : Memory.wf [] := by simp [Memory.wf]

/-- The list form of `Memory.set` keeps the rising order. -/
theorem pairwise_set {m : Memory} (n : Nat) (v : Byte) (h : m.Pairwise fun p q => p.1 < q.1) :
    (set m n v).Pairwise fun p q => p.1 < q.1 := by
  induction m with
  | nil => by_cases hv : v = unlisted <;> simp [set, hv]
  | cons p rest ih =>
    rw [List.pairwise_cons] at h
    obtain ⟨hhead, htail⟩ := h
    simp only [set]
    split
    · next hlt =>
      split
      · exact List.pairwise_cons.2 ⟨hhead, htail⟩
      · refine List.pairwise_cons.2 ⟨fun q hq => ?_, List.pairwise_cons.2 ⟨hhead, htail⟩⟩
        rcases List.mem_cons.1 hq with rfl | hq
        · exact hlt
        · exact lt_trans hlt (hhead q hq)
    · next hnlt =>
      split
      · next heq =>
        split
        · exact htail
        · exact List.pairwise_cons.2 ⟨fun q hq => heq ▸ hhead q hq, htail⟩
      · next hne =>
        refine List.pairwise_cons.2 ⟨fun q hq => ?_, ih htail⟩
        rcases mem_set hq with hq | ⟨rfl, -⟩
        · exact hhead q hq
        · exact lt_of_le_of_ne (Nat.le_of_not_lt hnlt) (Ne.symm hne)

/-- Writing a cell below 256 keeps the canonical form. -/
theorem set_wf {m : Memory} {n : Nat} (v : Byte) (hn : n < Config.memSize) (hm : m.wf) : (set m n v).wf := by
  refine ⟨pairwise_set n v hm.1, fun p hp => ?_⟩
  rcases mem_set hp with hp | ⟨rfl, hv⟩
  · exact hm.2 p hp
  · exact ⟨hn, hv⟩

theorem place_wf {m : Memory} (vs : List Byte) (n : Nat) (hm : m.wf) : (place m n vs).wf := by
  induction vs generalizing m n with
  | nil => exact hm
  | cons v vs ih =>
    simp only [place]
    split
    · next hn => exact ih _ (set_wf v hn hm)
    · exact ih _ hm

/-- What a placed list of bytes reads as, below 256. -/
theorem get_place {m : Memory} (vs : List Byte) (n k : Nat) (hm : m.wf) (hk : k < Config.memSize) :
    get (place m n vs) k = if h : n ≤ k ∧ k - n < vs.length then vs[k - n] else get m k := by
  induction vs generalizing m n with
  | nil => simp [place]
  | cons v vs ih =>
    have hstep : Memory.wf (if n < Config.memSize then m.set n v else m) := by
      split
      · next hn => exact set_wf v hn hm
      · exact hm
    simp only [place]
    rw [ih _ hstep]
    by_cases h1 : n + 1 ≤ k ∧ k - (n + 1) < vs.length
    · have h2 : n ≤ k ∧ k - n < (v :: vs).length := by simp; omega
      have h3 : k - n = (k - (n + 1)) + 1 := by omega
      rw [dif_pos h1, dif_pos h2]
      simp only [h3, List.getElem_cons_succ]
    · rw [dif_neg h1]
      by_cases hkn : k = n
      · subst hkn
        rw [dif_pos (by simp), if_pos hk, get_set_self hm]
        simp
      · have h2 : ¬(n ≤ k ∧ k - n < (v :: vs).length) := by simp; omega
        rw [dif_neg h2]
        split
        · exact get_set_other v hkn
        · rfl

end Sys2Proof.Machine.Memory
end

