-- ==== Sys2Proof/Laws/State.lean ====
section
/-! SUPPORT. One lemma per field per update of State, true by rfl, so that no later proof unfolds a record update;
and the register file's read-after-write laws. -/

namespace Sys2Proof.Machine.State

variable (s : State) (i j : Fin Config.numRegs) (v : Byte) (n : Nat) (e : OutEvent)

/-! ## setReg -/

@[simp] theorem setReg_pc : (s.setReg i v).pc = s.pc := rfl
@[simp] theorem setReg_fl : (s.setReg i v).fl = s.fl := rfl
@[simp] theorem setReg_mem : (s.setReg i v).mem = s.mem := rfl
@[simp] theorem setReg_status : (s.setReg i v).status = s.status := rfl
@[simp] theorem setReg_out : (s.setReg i v).out = s.out := rfl

/-! ## decSp and incSp -/

@[simp] theorem decSp_pc : s.decSp.pc = s.pc := rfl
@[simp] theorem decSp_fl : s.decSp.fl = s.fl := rfl
@[simp] theorem decSp_mem : s.decSp.mem = s.mem := rfl
@[simp] theorem decSp_status : s.decSp.status = s.status := rfl
@[simp] theorem decSp_out : s.decSp.out = s.out := rfl
@[simp] theorem incSp_pc : s.incSp.pc = s.pc := rfl
@[simp] theorem incSp_fl : s.incSp.fl = s.fl := rfl
@[simp] theorem incSp_mem : s.incSp.mem = s.mem := rfl
@[simp] theorem incSp_status : s.incSp.status = s.status := rfl
@[simp] theorem incSp_out : s.incSp.out = s.out := rfl

/-! ## advance and jump -/

@[simp] theorem advance_x : (s.advance n).x = s.x := rfl
@[simp] theorem advance_pc : (s.advance n).pc = s.pc + n := rfl
@[simp] theorem advance_fl : (s.advance n).fl = s.fl := rfl
@[simp] theorem advance_mem : (s.advance n).mem = s.mem := rfl
@[simp] theorem advance_status : (s.advance n).status = s.status := rfl
@[simp] theorem advance_out : (s.advance n).out = s.out := rfl
@[simp] theorem advance_getReg : (s.advance n).getReg i = s.getReg i := rfl
@[simp] theorem advance_sp : (s.advance n).sp = s.sp := rfl
@[simp] theorem jump_x : (s.jump v).x = s.x := rfl
@[simp] theorem jump_pc : (s.jump v).pc = v.toNat := rfl
@[simp] theorem jump_fl : (s.jump v).fl = s.fl := rfl
@[simp] theorem jump_mem : (s.jump v).mem = s.mem := rfl
@[simp] theorem jump_status : (s.jump v).status = s.status := rfl
@[simp] theorem jump_out : (s.jump v).out = s.out := rfl
@[simp] theorem jump_getReg : (s.jump v).getReg i = s.getReg i := rfl
@[simp] theorem jump_sp : (s.jump v).sp = s.sp := rfl

/-! ## emit and halt -/

@[simp] theorem emit_x : (s.emit e).x = s.x := rfl
@[simp] theorem emit_pc : (s.emit e).pc = s.pc := rfl
@[simp] theorem emit_fl : (s.emit e).fl = s.fl := rfl
@[simp] theorem emit_mem : (s.emit e).mem = s.mem := rfl
@[simp] theorem emit_status : (s.emit e).status = s.status := rfl
@[simp] theorem emit_out : (s.emit e).out = s.out ++ [e] := rfl
@[simp] theorem emit_getReg : (s.emit e).getReg i = s.getReg i := rfl
@[simp] theorem halt_x : s.halt.x = s.x := rfl
@[simp] theorem halt_pc : s.halt.pc = s.pc := rfl
@[simp] theorem halt_fl : s.halt.fl = s.fl := rfl
@[simp] theorem halt_mem : s.halt.mem = s.mem := rfl
@[simp] theorem halt_status : s.halt.status = .halted := rfl
@[simp] theorem halt_out : s.halt.out = s.out := rfl
@[simp] theorem halt_getReg : s.halt.getReg i = s.getReg i := rfl

/-! ## Plain record updates -/

@[simp] theorem withMem_getReg (m : Memory) : ({ s with mem := m } : State).getReg i = s.getReg i := rfl
@[simp] theorem withMem_sp (m : Memory) : ({ s with mem := m } : State).sp = s.sp := rfl
@[simp] theorem withFl_getReg (f : Flags) : ({ s with fl := f } : State).getReg i = s.getReg i := rfl
@[simp] theorem withStatus_getReg (r : RunStatus) : ({ s with status := r } : State).getReg i = s.getReg i := rfl

/-! ## The register file -/

@[simp] theorem getReg_setReg_self : (s.setReg i v).getReg i = v := by
  simp [getReg, setReg, Vector.get_eq_getElem]

theorem getReg_setReg_other (h : j ≠ i) : (s.setReg i v).getReg j = s.getReg j := by
  have h' : i.val ≠ j.val := fun e => h (Fin.ext e.symm)
  simp [getReg, setReg, Vector.get_eq_getElem, Vector.getElem_set_ne, h']

theorem getReg_setReg : (s.setReg i v).getReg j = if j = i then v else s.getReg j := by
  split
  · next h => rw [h, getReg_setReg_self]
  · next h => exact getReg_setReg_other s i j v h

/-- Register files that read alike are equal. -/
theorem x_ext {s t : State} (h : ∀ i, s.getReg i = t.getReg i) : s.x = t.x :=
  Vector.ext fun i hi => by simpa [getReg, Vector.get_eq_getElem] using h ⟨i, hi⟩

/-- The decremented stack pointer (R130). -/
@[simp] theorem decSp_sp_toNat : s.decSp.sp.toNat = (s.sp.toNat + 255) % 256 := by
  simp [decSp, sp]

/-- The incremented stack pointer (R131). -/
@[simp] theorem incSp_sp_toNat : s.incSp.sp.toNat = (s.sp.toNat + 1) % 256 := by
  simp [incSp, sp]

theorem decSp_getReg (h : i ≠ Config.spIndex) : s.decSp.getReg i = s.getReg i :=
  getReg_setReg_other s _ i _ h

theorem incSp_getReg (h : i ≠ Config.spIndex) : s.incSp.getReg i = s.getReg i :=
  getReg_setReg_other s _ i _ h

/-- Increment after decrement restores the stack pointer, at both ends of its range too (R132). -/
theorem incSp_decSp_sp : s.decSp.incSp.sp = s.sp := by
  apply BitVec.eq_of_toNat_eq
  have := s.sp.isLt
  simp
  omega

end Sys2Proof.Machine.State
end

