-- ==== Sys2Proof/Laws/Ops.lean ====
section
/-! SUPPORT. For each shared operation, one lemma that says everything it can do; later proofs cite these instead of
unfolding the operation. -/

namespace Sys2Proof.Machine

variable {α : Type} {s t : State}

/-! ## Memory access -/

theorem memRead_ok {n : Nat} (h : n < 256) : memRead n s = .ok (s.mem.get n) := if_pos h

theorem memRead_error {n : Nat} (h : 256 ≤ n) : memRead n s = .error (.addressOutOfRange n) :=
  if_neg (Nat.not_lt.2 h)

theorem memWrite_ok {n : Nat} (v : Byte) (h : n < 256) :
    memWrite n v s = .ok { s with mem := s.mem.set n v } := if_pos h

theorem memWrite_error {n : Nat} (v : Byte) (h : 256 ≤ n) :
    memWrite n v s = .error (.addressOutOfRange n) := if_neg (Nat.not_lt.2 h)

/-- A read depends on memory alone. -/
theorem memRead_congr (h : s.mem = t.mem) (n : Nat) : memRead n s = memRead n t := by
  simp only [memRead, h]

/-! ## Raising -/

@[simp] theorem orRaise_ok (v : α) (k : α → Result) : orRaise s (.ok v) k = k v := rfl

@[simp] theorem orRaise_error (c : Cause) (k : α → Result) : orRaise s (.error c) k = raise c s := rfl

/-- Taking an abort changes the status and nothing else (R162). -/
theorem raise_eq_next {c : Cause} : raise c s = .next t ↔ t = { s with status := .aborted c } := by
  simp [raise, eq_comm]

/-! ## Operand checks -/

theorem checkIndex_ok {v : Byte} (h : v.toNat < 8) : checkIndex v = .ok ⟨v.toNat, h⟩ := dif_pos h

theorem checkIndex_error {v : Byte} (h : 8 ≤ v.toNat) :
    checkIndex v = .error (.registerIndexOutOfRange v) := dif_neg (Nat.not_lt.2 h)

theorem withReg_ok {a : Byte} (h : a.toNat < 8) (k : Fin Config.numRegs → Result) :
    withReg a s k = k ⟨a.toNat, h⟩ := by
  rw [withReg, checkIndex_ok h, orRaise_ok]

theorem withReg_error {a : Byte} (h : 8 ≤ a.toNat) (k : Fin Config.numRegs → Result) :
    withReg a s k = raise (.registerIndexOutOfRange a) s := by
  rw [withReg, checkIndex_error h, orRaise_error]

/-- What one register operand can do. -/
theorem withReg_cases {a : Byte} {k : Fin Config.numRegs → Result} (h : withReg a s k = .next t) :
    (∃ ha : a.toNat < 8, k ⟨a.toNat, ha⟩ = .next t) ∨
      (8 ≤ a.toNat ∧ t = { s with status := .aborted (.registerIndexOutOfRange a) }) := by
  rcases Nat.lt_or_ge a.toNat 8 with ha | ha
  · exact .inl ⟨ha, withReg_ok ha k ▸ h⟩
  · exact .inr ⟨ha, raise_eq_next.1 (withReg_error ha k ▸ h)⟩

theorem withRegs_ok {a b : Byte} (ha : a.toNat < 8) (hb : b.toNat < 8)
    (k : Fin Config.numRegs → Fin Config.numRegs → Result) :
    withRegs a b s k = k ⟨a.toNat, ha⟩ ⟨b.toNat, hb⟩ := by
  rw [withRegs, withReg_ok ha, withReg_ok hb]

theorem withRegs_error_left {a : Byte} (b : Byte) (ha : 8 ≤ a.toNat)
    (k : Fin Config.numRegs → Fin Config.numRegs → Result) :
    withRegs a b s k = raise (.registerIndexOutOfRange a) s := by
  rw [withRegs, withReg_error ha]

theorem withRegs_error_right {a b : Byte} (ha : a.toNat < 8) (hb : 8 ≤ b.toNat)
    (k : Fin Config.numRegs → Fin Config.numRegs → Result) :
    withRegs a b s k = raise (.registerIndexOutOfRange b) s := by
  rw [withRegs, withReg_ok ha, withReg_error hb]

/-- What two register operands can do: `a` is examined before `b` (R85). -/
theorem withRegs_cases {a b : Byte} {k : Fin Config.numRegs → Fin Config.numRegs → Result}
    (h : withRegs a b s k = .next t) :
    (∃ (ha : a.toNat < 8) (hb : b.toNat < 8), k ⟨a.toNat, ha⟩ ⟨b.toNat, hb⟩ = .next t) ∨
      (8 ≤ a.toNat ∧ t = { s with status := .aborted (.registerIndexOutOfRange a) }) ∨
      (a.toNat < 8 ∧ 8 ≤ b.toNat ∧ t = { s with status := .aborted (.registerIndexOutOfRange b) }) := by
  rcases withReg_cases h with ⟨ha, h⟩ | h
  · rcases withReg_cases h with ⟨hb, h⟩ | ⟨hb, h⟩
    · exact .inl ⟨ha, hb, h⟩
    · exact .inr (.inr ⟨ha, hb, h⟩)
  · exact .inr (.inl h)

/-! ## The stack -/

/-- A push never raises: its address is a byte (20_memory.md R44). -/
theorem pushByte_eq (v : State → Byte) (k : State → Result) :
    pushByte s v k = k { s.decSp with mem := s.mem.set s.decSp.sp.toNat (v s.decSp) } := by
  rw [pushByte, memWrite_ok _ s.decSp.sp.isLt, orRaise_ok]
  rfl

/-- A pop's read never raises: its address is a byte (20_memory.md R44). -/
theorem topByte_eq (k : Byte → Result) : topByte s k = k (s.mem.get s.sp.toNat) := by
  rw [topByte, memRead_ok s.sp.isLt, orRaise_ok]

end Sys2Proof.Machine
end

