-- ==== Sys2Proof/Laws/Cycle.lean ====
section
/-! SUPPORT. What the shared instruction forms, the fetch and the phases after it can do. -/

namespace Sys2Proof.Machine

variable {s t : State} {c : Config}

/-! ## Instruction forms -/

/-- What a two-register operation can do. -/
theorem aluWrite_cases {f : Byte → Byte → Byte} {a b : Byte} (h : aluWrite f a b s = .next t) :
    (∃ ra rb : Fin Config.numRegs, ra.val = a.toNat ∧ rb.val = b.toNat ∧
        t = (s.setReg ra (f (s.getReg ra) (s.getReg rb))).advance 3) ∨
      ∃ v, 8 ≤ v.toNat ∧ t = { s with status := .aborted (.registerIndexOutOfRange v) } := by
  rcases withRegs_cases h with ⟨ha, hb, h⟩ | ⟨ha, h⟩ | ⟨-, hb, h⟩
  · exact .inl ⟨⟨_, ha⟩, ⟨_, hb⟩, rfl, rfl, by simpa using h.symm⟩
  · exact .inr ⟨a, ha, h⟩
  · exact .inr ⟨b, hb, h⟩

/-- The pushed byte is at the new stack pointer, and no other cell has changed. -/
theorem push_mem (hs : s.mem.wf) (v : Byte) (n : Nat) :
    Memory.get (s.mem.set s.decSp.sp.toNat v) n = if n = s.decSp.sp.toNat then v else s.mem.get n := by
  split
  · next h => rw [h, Memory.get_set_self hs]
  · next h => exact Memory.get_set_other v h

/-! ## FETCH -/

/-- At pc <= 253 the fetch gives the three bytes at pc (R82). -/
theorem fetch_ok (h : s.pc ≤ 253) :
    fetch s = .ok (s.mem.get s.pc, s.mem.get (s.pc + 1), s.mem.get (s.pc + 2)) := by
  simp only [fetch, memRead_ok (show s.pc < 256 by omega), memRead_ok (show s.pc + 1 < 256 by omega),
    memRead_ok (show s.pc + 2 < 256 by omega)]

/-- At pc >= 254 the fetch raises, with the first address of 256 or more (R82). -/
theorem fetch_error (h : 254 ≤ s.pc) : fetch s = .error (.addressOutOfRange (max 256 s.pc)) := by
  rcases Nat.lt_or_ge s.pc 256 with h1 | h1
  · have hmax : max 256 s.pc = 256 := by omega
    rw [hmax]
    rcases Nat.lt_or_ge s.pc 255 with h2 | h2
    · have h3 : s.pc + 2 = 256 := by omega
      simp only [fetch, memRead_ok h1, memRead_ok (show s.pc + 1 < 256 by omega), memRead_error (Nat.le_of_eq h3.symm)]
      rw [h3]
    · have h3 : s.pc + 1 = 256 := by omega
      simp only [fetch, memRead_ok h1, memRead_error (Nat.le_of_eq h3.symm)]
      rw [h3]
  · have hmax : max 256 s.pc = s.pc := by omega
    simp only [fetch, memRead_error h1, hmax]

/-! ## The phases after FETCH -/

theorem execBytes_ok {op a b : Byte} {i : Instr} (h : decode c op a b = .ok i) :
    execBytes c op a b s = exec i s := by
  simp only [execBytes, h]

theorem execBytes_unassigned {op : Byte} (a b : Byte) (h : ∀ m, c.opc m ≠ op) :
    execBytes c op a b s = .next (s.advance (opcodeLength op)) := by
  rcases decode_cases c op a b with ⟨m, hm, -⟩ | ⟨-, hd⟩
  · exact absurd hm (h m)
  · simp only [execBytes, hd, execUnassigned]

/-- What one pass of the loop body can do (R81): an abort in FETCH, an assigned instruction, or an unassigned
opcode. -/
theorem cycle_cases (c : Config) (s : State) :
    (254 ≤ s.pc ∧ cycle c s = raise (.addressOutOfRange (max 256 s.pc)) s) ∨
      (s.pc ≤ 253 ∧ ∃ i, decode c (s.mem.get s.pc) (s.mem.get (s.pc + 1)) (s.mem.get (s.pc + 2)) = .ok i ∧
        cycle c s = exec i s) ∨
      (s.pc ≤ 253 ∧ (∀ m, c.opc m ≠ s.mem.get s.pc) ∧
        cycle c s = .next (s.advance (opcodeLength (s.mem.get s.pc)))) := by
  rcases Nat.lt_or_ge 253 s.pc with h | h
  · exact .inl ⟨h, by rw [cycle, fetch_error h, orRaise_error]⟩
  · have hc : cycle c s = execBytes c (s.mem.get s.pc) (s.mem.get (s.pc + 1)) (s.mem.get (s.pc + 2)) s := by
      rw [cycle, fetch_ok h, orRaise_ok]
    rcases decode_cases c (s.mem.get s.pc) (s.mem.get (s.pc + 1)) (s.mem.get (s.pc + 2)) with ⟨m, -, hd⟩ | ⟨hu, -⟩
    · exact .inr (.inl ⟨h, _, hd, by rw [hc, execBytes_ok hd]⟩)
    · exact .inr (.inr ⟨h, hu, by rw [hc, execBytes_unassigned _ _ hu]⟩)

end Sys2Proof.Machine
end

