-- ==== Sys2Proof/Laws/Exec.lean ====
section
/-! SUPPORT. What executing an instruction can do, said once: `Effect s i t` gives the next state of each instruction
whose operands pass CHECK, in terms of the shared operations, and `exec_cases` says that the only other outcome is
the abort of the first bad operand. Later proofs split on these instead of unfolding a meaning. -/

namespace Sys2Proof.Machine

/-- The state after a byte has been pushed. -/
def State.pushed (s : State) (v : Byte) : State :=
  { s.decSp with mem := s.mem.set s.decSp.sp.toNat v }

@[simp] theorem State.pushed_pc (s : State) (v : Byte) : (s.pushed v).pc = s.pc := rfl
@[simp] theorem State.pushed_fl (s : State) (v : Byte) : (s.pushed v).fl = s.fl := rfl
@[simp] theorem State.pushed_status (s : State) (v : Byte) : (s.pushed v).status = s.status := rfl
@[simp] theorem State.pushed_out (s : State) (v : Byte) : (s.pushed v).out = s.out := rfl
@[simp] theorem State.pushed_mem (s : State) (v : Byte) :
    (s.pushed v).mem = s.mem.set s.decSp.sp.toNat v := rfl
@[simp] theorem State.pushed_sp (s : State) (v : Byte) : (s.pushed v).sp = s.decSp.sp := rfl
@[simp] theorem State.pushed_getReg (s : State) (v : Byte) (i : Fin Config.numRegs) :
    (s.pushed v).getReg i = s.decSp.getReg i := rfl

/-- The next state of an instruction whose register operands are valid. -/
inductive Effect (s : State) : Instr → State → Prop
  | hlt : Effect s .hlt (s.halt.advance 1)
  | ret : Effect s .ret (s.jump (s.mem.get s.sp.toNat)).incSp
  | push {a} (ha : a.toNat < 8) : Effect s (.push a) ((s.pushed (s.decSp.getReg (regOf a ha))).advance 2)
  | pop {a} (ha : a.toNat < 8) :
      Effect s (.pop a) ((s.setReg (regOf a ha) (s.mem.get s.sp.toNat)).incSp.advance 2)
  | prn {a} (ha : a.toNat < 8) : Effect s (.prn a) ((s.emit (.print (s.getReg (regOf a ha)))).advance 2)
  | call {a} (ha : a.toNat < 8) :
      Effect s (.call a) ((s.pushed (returnByte s)).jump (s.decSp.getReg (regOf a ha)))
  | jmp {a} (ha : a.toNat < 8) : Effect s (.jmp a) (s.jump (s.getReg (regOf a ha)))
  | jeqTaken {a} (ha : a.toNat < 8) (h : s.fl.eq = true) : Effect s (.jeq a) (s.jump (s.getReg (regOf a ha)))
  | jeqNot {a} (ha : a.toNat < 8) (h : s.fl.eq = false) : Effect s (.jeq a) (s.advance 2)
  | jneTaken {a} (ha : a.toNat < 8) (h : s.fl.eq = false) : Effect s (.jne a) (s.jump (s.getReg (regOf a ha)))
  | jneNot {a} (ha : a.toNat < 8) (h : s.fl.eq = true) : Effect s (.jne a) (s.advance 2)
  | not {a} (ha : a.toNat < 8) :
      Effect s (.not a) ((s.setReg (regOf a ha) (aluNot (s.getReg (regOf a ha)))).advance 2)
  | ldi {a b} (ha : a.toNat < 8) : Effect s (.ldi a b) ((s.setReg (regOf a ha) b).advance 3)
  | add {a b} (ha : a.toNat < 8) (hb : b.toNat < 8) : Effect s (.add a b)
      ((s.setReg (regOf a ha) (aluAdd (s.getReg (regOf a ha)) (s.getReg (regOf b hb)))).advance 3)
  | sub {a b} (ha : a.toNat < 8) (hb : b.toNat < 8) : Effect s (.sub a b)
      ((s.setReg (regOf a ha) (aluSub (s.getReg (regOf a ha)) (s.getReg (regOf b hb)))).advance 3)
  | mul {a b} (ha : a.toNat < 8) (hb : b.toNat < 8) : Effect s (.mul a b)
      ((s.setReg (regOf a ha) (aluMul (s.getReg (regOf a ha)) (s.getReg (regOf b hb)))).advance 3)
  | mod {a b} (ha : a.toNat < 8) (hb : b.toNat < 8) (h : s.getReg (regOf b hb) ≠ 0) : Effect s (.mod a b)
      ((s.setReg (regOf a ha) (aluMod (s.getReg (regOf a ha)) (s.getReg (regOf b hb)))).advance 3)
  | modZero {a b} (ha : a.toNat < 8) (hb : b.toNat < 8) (h : s.getReg (regOf b hb) = 0) :
      Effect s (.mod a b) (((s.emit .divZeroDiag).halt).advance 3)
  | cmp {a b} (ha : a.toNat < 8) (hb : b.toNat < 8) : Effect s (.cmp a b)
      (({ s with fl := compareFlags (s.getReg (regOf a ha)) (s.getReg (regOf b hb)) } : State).advance 3)
  | and {a b} (ha : a.toNat < 8) (hb : b.toNat < 8) : Effect s (.and a b)
      ((s.setReg (regOf a ha) (aluAnd (s.getReg (regOf a ha)) (s.getReg (regOf b hb)))).advance 3)
  | or {a b} (ha : a.toNat < 8) (hb : b.toNat < 8) : Effect s (.or a b)
      ((s.setReg (regOf a ha) (aluOr (s.getReg (regOf a ha)) (s.getReg (regOf b hb)))).advance 3)
  | xor {a b} (ha : a.toNat < 8) (hb : b.toNat < 8) : Effect s (.xor a b)
      ((s.setReg (regOf a ha) (aluXor (s.getReg (regOf a ha)) (s.getReg (regOf b hb)))).advance 3)
  | shl {a b} (ha : a.toNat < 8) (hb : b.toNat < 8) : Effect s (.shl a b)
      ((s.setReg (regOf a ha) (aluShl (s.getReg (regOf a ha)) (s.getReg (regOf b hb)))).advance 3)
  | shr {a b} (ha : a.toNat < 8) (hb : b.toNat < 8) : Effect s (.shr a b)
      ((s.setReg (regOf a ha) (aluShr (s.getReg (regOf a ha)) (s.getReg (regOf b hb)))).advance 3)

variable {s t : State} {i : Instr}

/-- An instruction with an effect executes to it. -/
theorem Effect.exec_eq (h : Effect s i t) : exec i s = .next t := by
  cases h
  case hlt => rfl
  case ret => exact topByte_eq _
  case push ha => exact (withReg_ok ha _).trans (pushByte_eq _ _)
  case pop ha => exact (withReg_ok ha _).trans (topByte_eq _)
  case call ha => exact (withReg_ok ha _).trans (pushByte_eq _ _)
  case prn ha | jmp ha | not ha | ldi ha => exact withReg_ok ha _
  case jeqTaken ha h => exact (withReg_ok ha _).trans (by rw [if_pos h]; rfl)
  case jeqNot ha h => exact (withReg_ok ha _).trans (by simp [h])
  case jneTaken ha h => exact (withReg_ok ha _).trans (by simp [h, regOf])
  case jneNot ha h => exact (withReg_ok ha _).trans (by rw [if_pos h])
  case mod ha hb h => exact (withRegs_ok ha hb _).trans (if_neg h)
  case modZero ha hb h => exact (withRegs_ok ha hb _).trans (if_pos h)
  case add ha hb | sub ha hb | mul ha hb | cmp ha hb | and ha hb | or ha hb | xor ha hb | shl ha hb | shr ha hb =>
    exact withRegs_ok ha hb _

/-- An effect comes only from valid operands. -/
theorem Effect.badOperand_eq (h : Effect s i t) : badOperand i = none := by
  cases h <;> simp [badOperand, Instr.regOperands, validIndex, *]

/-- One register operand, in the terms of Safety.lean. -/
theorem withReg_split {a : Byte} {k : Fin Config.numRegs → Result} (h : withReg a s k = .next t) :
    (∃ ha : a.toNat < 8, k (regOf a ha) = .next t) ∨
      ∃ v, [a].find? (fun v => !validIndex v) = some v ∧
        t = { s with status := .aborted (.registerIndexOutOfRange v) } := by
  rcases withReg_cases h with ⟨ha, h⟩ | ⟨ha, h⟩
  · exact .inl ⟨ha, h⟩
  · exact .inr ⟨a, by simp [validIndex, ha], h⟩

/-- Two register operands, in the terms of Safety.lean. -/
theorem withRegs_split {a b : Byte} {k : Fin Config.numRegs → Fin Config.numRegs → Result}
    (h : withRegs a b s k = .next t) :
    (∃ (ha : a.toNat < 8) (hb : b.toNat < 8), k (regOf a ha) (regOf b hb) = .next t) ∨
      ∃ v, [a, b].find? (fun v => !validIndex v) = some v ∧
        t = { s with status := .aborted (.registerIndexOutOfRange v) } := by
  rcases withRegs_cases h with ⟨ha, hb, h⟩ | ⟨ha, h⟩ | ⟨ha, hb, h⟩
  · exact .inl ⟨ha, hb, h⟩
  · exact .inr ⟨a, by simp [validIndex, ha], h⟩
  · exact .inr ⟨b, by simp [validIndex, ha, hb], h⟩

/-- What executing an instruction can do: its effect, or the abort of its first bad operand. -/
theorem exec_cases (h : exec i s = .next t) :
    Effect s i t ∨
      ∃ v, badOperand i = some v ∧ t = { s with status := .aborted (.registerIndexOutOfRange v) } := by
  cases i
  case hlt => cases h; exact .inl .hlt
  case ret =>
    rw [exec, execRet, topByte_eq] at h
    cases h
    exact .inl .ret
  case push =>
    refine (withReg_split h).imp_left fun ⟨ha, h⟩ => ?_
    rw [pushByte_eq] at h
    cases h
    exact .push ha
  case call =>
    refine (withReg_split h).imp_left fun ⟨ha, h⟩ => ?_
    rw [pushByte_eq] at h
    cases h
    exact .call ha
  case pop =>
    refine (withReg_split h).imp_left fun ⟨ha, h⟩ => ?_
    rw [topByte_eq] at h
    cases h
    exact .pop ha
  case jeq =>
    refine (withReg_split h).imp_left fun ⟨ha, h⟩ => ?_
    cases hq : s.fl.eq <;> simp only [hq] at h <;> cases h
    · exact .jeqNot ha hq
    · exact .jeqTaken ha hq
  case jne =>
    refine (withReg_split h).imp_left fun ⟨ha, h⟩ => ?_
    cases hq : s.fl.eq <;> simp only [hq] at h <;> cases h
    · exact .jneTaken ha hq
    · exact .jneNot ha hq
  case mod =>
    refine (withRegs_split h).imp_left fun ⟨ha, hb, h⟩ => ?_
    split at h <;> cases h
    · exact .modZero ha hb ‹_›
    · exact .mod ha hb ‹_›
  case prn => exact (withReg_split h).imp_left fun ⟨ha, h⟩ => by cases h; exact .prn ha
  case jmp => exact (withReg_split h).imp_left fun ⟨ha, h⟩ => by cases h; exact .jmp ha
  case not => exact (withReg_split h).imp_left fun ⟨ha, h⟩ => by cases h; exact .not ha
  case ldi => exact (withReg_split h).imp_left fun ⟨ha, h⟩ => by cases h; exact .ldi ha
  case add => exact (withRegs_split h).imp_left fun ⟨ha, hb, h⟩ => by cases h; exact .add ha hb
  case sub => exact (withRegs_split h).imp_left fun ⟨ha, hb, h⟩ => by cases h; exact .sub ha hb
  case mul => exact (withRegs_split h).imp_left fun ⟨ha, hb, h⟩ => by cases h; exact .mul ha hb
  case cmp => exact (withRegs_split h).imp_left fun ⟨ha, hb, h⟩ => by cases h; exact .cmp ha hb
  case and => exact (withRegs_split h).imp_left fun ⟨ha, hb, h⟩ => by cases h; exact .and ha hb
  case or => exact (withRegs_split h).imp_left fun ⟨ha, hb, h⟩ => by cases h; exact .or ha hb
  case xor => exact (withRegs_split h).imp_left fun ⟨ha, hb, h⟩ => by cases h; exact .xor ha hb
  case shl => exact (withRegs_split h).imp_left fun ⟨ha, hb, h⟩ => by cases h; exact .shl ha hb
  case shr => exact (withRegs_split h).imp_left fun ⟨ha, hb, h⟩ => by cases h; exact .shr ha hb

/-- The status after an instruction's effect (R29). -/
theorem Effect.status_cases (h : Effect s i t) : t.status = s.status ∨ t.status = .halted := by
  cases h <;> simp

/-! ## The step -/

theorem stepWith_running {c : Config} (h : s.status = .running) : stepWith c s = cycle c s := by
  simp only [stepWith, h]

theorem running_of_next {c : Config} (h : stepWith c s = .next t) : s.status = .running := by
  unfold stepWith at h
  split at h
  · assumption
  · cases h
  · cases h

/-- What a step that answers a next state has done (R81). -/
theorem stepWith_cases {c : Config} (h : stepWith c s = .next t) :
    s.status = .running ∧
      ((254 ≤ s.pc ∧ t = { s with status := .aborted (.addressOutOfRange (max 256 s.pc)) }) ∨
        (∃ i, Runs c s i ∧ exec i s = .next t) ∨
        (s.pc ≤ 253 ∧ (∀ m, c.opc m ≠ s.mem.get s.pc) ∧ t = s.advance (opcodeLength (s.mem.get s.pc)))) := by
  have hr := running_of_next h
  refine ⟨hr, ?_⟩
  rw [stepWith_running hr] at h
  rcases cycle_cases c s with ⟨hp, hc⟩ | ⟨hp, i, hd, hc⟩ | ⟨hp, hu, hc⟩
  · exact .inl ⟨hp, raise_eq_next.1 (hc ▸ h)⟩
  · exact .inr (.inl ⟨i, ⟨_, _, _, ⟨hr, hp, rfl, rfl, rfl⟩, hd⟩, hc ▸ h⟩)
  · rw [hc] at h
    exact .inr (.inr ⟨hp, hu, by simpa using h.symm⟩)

theorem Runs.pc_le {c : Config} (h : Runs c s i) : s.pc ≤ 253 := by
  obtain ⟨_, _, _, ⟨_, h, _⟩, _⟩ := h
  exact h

theorem Runs.opcode {c : Config} (h : Runs c s i) : c.opc i.mnemonic = s.mem.get s.pc := by
  obtain ⟨_, _, _, ⟨_, _, rfl, rfl, rfl⟩, h⟩ := h
  exact decode_ok_opcode h

theorem Runs.unique {c : Config} {j : Instr} (h : Runs c s i) (k : Runs c s j) : i = j := by
  obtain ⟨_, _, _, ⟨_, _, rfl, rfl, rfl⟩, h⟩ := h
  obtain ⟨_, _, _, ⟨_, _, rfl, rfl, rfl⟩, k⟩ := k
  rw [h] at k
  cases k
  rfl

end Sys2Proof.Machine
end

