-- ==== Sys2Proof/Laws/PerInstr.lean ====
section
/-! SUPPORT. The per-instruction family `OperandBytes`: an instruction has as many operand bytes as its mnemonic's
operand count (30_encoding.md R65, R67), one lemma per constructor. -/

namespace Sys2Proof.Laws.OperandBytes

/-- The operand bytes of `i` are as many as R67 gives its mnemonic. -/
def Statement (i : Instr) : Prop := i.operands.length = i.mnemonic.operandCount

theorem hlt : Statement .hlt := rfl
theorem ret : Statement .ret := rfl
theorem push (a : Byte) : Statement (.push a) := rfl
theorem pop (a : Byte) : Statement (.pop a) := rfl
theorem prn (a : Byte) : Statement (.prn a) := rfl
theorem call (a : Byte) : Statement (.call a) := rfl
theorem jmp (a : Byte) : Statement (.jmp a) := rfl
theorem jeq (a : Byte) : Statement (.jeq a) := rfl
theorem jne (a : Byte) : Statement (.jne a) := rfl
theorem not (a : Byte) : Statement (.not a) := rfl
theorem ldi (a b : Byte) : Statement (.ldi a b) := rfl
theorem add (a b : Byte) : Statement (.add a b) := rfl
theorem sub (a b : Byte) : Statement (.sub a b) := rfl
theorem mul (a b : Byte) : Statement (.mul a b) := rfl
theorem mod (a b : Byte) : Statement (.mod a b) := rfl
theorem cmp (a b : Byte) : Statement (.cmp a b) := rfl
theorem and (a b : Byte) : Statement (.and a b) := rfl
theorem or (a b : Byte) : Statement (.or a b) := rfl
theorem xor (a b : Byte) : Statement (.xor a b) := rfl
theorem shl (a b : Byte) : Statement (.shl a b) := rfl
theorem shr (a b : Byte) : Statement (.shr a b) := rfl

end Sys2Proof.Laws.OperandBytes
end

