-- ==== Sys2Proof/Laws/Run.lean ====
section
/-! SUPPORT. Runs of the machine, one step at a time. (`core.State` is `State` by definition, not by syntax; these
lemmas cross that line once.) -/

namespace Sys2Proof.Machine

theorem run_zero (s : State) : Host.Core.run core 0 s = .next s := rfl

/-- A run of any machine begins with a step. -/
theorem coreRun_succ (M : Host.Core) (k : Nat) (s : M.State) :
    M.run (k + 1) s = (match M.step s with
      | .next t => M.run k t
      | .fault r => .fault r
      | .refused r => .refused r) := rfl

theorem run_succ_of_next {k : Nat} {s t : State} (h : step s = .next t) :
    Host.Core.run core (k + 1) s = Host.Core.run core k t := by
  have h' : core.step s = .next t := h
  exact (coreRun_succ core k s).trans (by simp only [h'])

/-- A run that takes `k + 1` steps takes a first one. -/
theorem next_of_run_succ {k : Nat} {s u : State} (h : Host.Core.run core (k + 1) s = .next u) :
    ∃ t, step s = .next t ∧ Host.Core.run core k t = .next u := by
  cases hs : step s with
  | next t => exact ⟨t, rfl, (run_succ_of_next hs).symm.trans h⟩
  | fault r =>
    have h' : core.step s = .fault r := hs
    have := (coreRun_succ core k s).symm.trans h
    simp only [h'] at this
    cases this
  | refused r =>
    have h' : core.step s = .refused r := hs
    have := (coreRun_succ core k s).symm.trans h
    simp only [h'] at this
    cases this

end Sys2Proof.Machine
end

