-- ==== Sys2Proof/Tests/Slice0.lean ====
section
/-! SUPPORT. The model's own tests, each on one step of a small state, with expected results taken from the tables of
spec/95_test_vectors.md or the rules named; the smoke test of WellFormed; the words written out from the encoding
tables; and for every statement with hypotheses a witness that meets them. -/

namespace Sys2Proof.Tests

open Sys2Proof.Machine

/-! ## Helpers -/

/-- The reset state with pc at `pc`, the bytes placed there, and some registers set. -/
def at' (pc : Nat) (bytes : List Byte) (regs : List (Fin 8 × Byte)) : State :=
  regs.foldl (fun s p => s.setReg p.1 p.2) { State.reset with pc := pc, mem := Memory.place [] pc bytes }

/-- What `f` reads from the state after one step. -/
def after {α : Type} (f : State → α) (s : State) : Option α :=
  match step s with
  | .next t => some (f t)
  | .fault _ => none
  | .refused _ => none

/-! ## WellFormed: an ill-formed term for each check, refused (R63, R65) -/

theorem test_wf_refuses_bad_operand : [Instr.push 8, .pop 8, .prn 9, .call 255, .jmp 8, .jeq 8, .jne 8, .not 8].all
    (fun i => i.wf == false) = true := by decide
theorem test_wf_refuses_bad_first : [Instr.ldi 8 0, .add 8 0, .sub 8 0, .mul 8 0, .mod 8 0, .cmp 8 0, .and 8 0,
    .or 8 0, .xor 8 0, .shl 8 0, .shr 8 0].all (fun i => i.wf == false) = true := by decide
theorem test_wf_refuses_bad_second : [Instr.add 0 8, .sub 0 8, .mul 0 8, .mod 0 8, .cmp 0 8, .and 0 8, .or 0 8,
    .xor 0 8, .shl 0 8, .shr 0 8].all (fun i => i.wf == false) = true := by decide
theorem test_wf_accepts : [Instr.hlt, .ret, .push 7, .ldi 7 255, .add 7 7].all Instr.wf = true := by decide

/-! ## Decoding: words written out from the table of R66 (also 95_test_vectors.md V-ENC) -/

theorem test_decode_no_operand : decode Config.default 0b00000001 0xFF 0xFF = .ok .hlt ∧
    decode Config.default 0b00010001 0xFF 0xFF = .ok .ret := ⟨rfl, rfl⟩
theorem test_decode_stack_print : decode Config.default 0b01000101 0b00000010 0xFF = .ok (.push 2) ∧
    decode Config.default 0b01000110 0b00000100 0xFF = .ok (.pop 4) ∧
    decode Config.default 0b01000111 0b00000000 0xFF = .ok (.prn 0) := ⟨rfl, rfl, rfl⟩
theorem test_decode_control : decode Config.default 0b01010000 0b00000001 0xFF = .ok (.call 1) ∧
    decode Config.default 0b01010100 0b00000100 0xFF = .ok (.jmp 4) ∧
    decode Config.default 0b01010101 0b00000011 0xFF = .ok (.jeq 3) ∧
    decode Config.default 0b01010110 0b00000100 0xFF = .ok (.jne 4) := ⟨rfl, rfl, rfl, rfl⟩
theorem test_decode_not_ldi : decode Config.default 0b01101001 0b00000010 0xFF = .ok (.not 2) ∧
    decode Config.default 0b10000010 0b00000000 0b00001000 = .ok (.ldi 0 8) := ⟨rfl, rfl⟩
theorem test_decode_arithmetic : decode Config.default 0b10100000 0b00000000 0b00000001 = .ok (.add 0 1) ∧
    decode Config.default 0b10100001 0b00000001 0b00000010 = .ok (.sub 1 2) ∧
    decode Config.default 0b10100010 0b00000000 0b00000001 = .ok (.mul 0 1) ∧
    decode Config.default 0b10100100 0b00000000 0b00000001 = .ok (.mod 0 1) ∧
    decode Config.default 0b10100111 0b00000001 0b00000011 = .ok (.cmp 1 3) := ⟨rfl, rfl, rfl, rfl, rfl⟩
theorem test_decode_bitwise : decode Config.default 0b10101000 0b00000000 0b00000001 = .ok (.and 0 1) ∧
    decode Config.default 0b10101010 0b00000000 0b00000001 = .ok (.or 0 1) ∧
    decode Config.default 0b10101011 0b00000000 0b00000001 = .ok (.xor 0 1) ∧
    decode Config.default 0b10101100 0b00000000 0b00000001 = .ok (.shl 0 1) ∧
    decode Config.default 0b10101101 0b00000000 0b00000001 = .ok (.shr 0 1) := ⟨rfl, rfl, rfl, rfl, rfl⟩
theorem test_decode_unassigned : decode Config.default 0x00 0 0 = .error (.unassigned 0x00) ∧
    decode Config.default 0x02 0 0 = .error (.unassigned 0x02) ∧
    decode Config.default 0x65 0 0 = .error (.unassigned 0x65) ∧
    decode Config.default 0xA3 0 0 = .error (.unassigned 0xA3) ∧
    decode Config.default 0xFF 0 0 = .error (.unassigned 0xFF) := ⟨rfl, rfl, rfl, rfl, rfl⟩
/-- The table numbers the second byte 15..8 and the third 23..16; bits above nbits are zero. -/
theorem test_table_word : decodeTableWord 24 0x080082 = some (.ldi 0 8) ∧ decodeTableWord 24 0x0201A1 = some (.sub 1 2) ∧
    decodeTableWord 8 0x45 = some (.push 0) ∧ decodeTableWord 8 0x0245 = some (.push 0) ∧
    decodeTableWord 8 0x00 = none := by decide
theorem test_encode : encode Config.default (.ldi 0 8) = [0x82, 0x00, 0x08] ∧
    encode Config.default (.call 1) = [0x50, 0x01] ∧ encode Config.default .ret = [0x11] := by decide

/-! ## Reset, image, cycle -/

/-- 70_reset_and_hazards.md R190, R192; program P1's first instruction, LDI R0,8. -/
theorem test_boot_first_step : after (fun t => (t.getReg 0, t.pc)) (State.boot [0x82, 0x00, 0x08, 0x82, 0x01, 0x09]) =
    some (8, 3) := by decide
/-- 10_state.md R33: the zero bytes of empty memory are one-byte no-operations (R69). -/
theorem test_reset_step : after (fun t => (t.pc, t.getReg 7, t.status)) State.reset = some (1, 0xF4, .running) := by
  decide
/-- V-CYC: pc = FE aborts with 256, pc unchanged; pc = 257 with 257; pc = FD is the last that executes. -/
theorem test_fetch_abort : after (fun t => (t.status, t.pc)) (at' 0xFE [0x01] []) =
    some (.aborted (.addressOutOfRange 256), 0xFE) := by decide
theorem test_fetch_abort_257 : after (fun t => t.status) (at' 257 [] []) =
    some (.aborted (.addressOutOfRange 257)) := by decide
theorem test_fetch_last : after (fun t => (t.status, t.pc)) (at' 0xFD [0x01] []) = some (.halted, 0xFE) := by decide
/-- V-CYC: C3 at 10 gives pc = 14; 7F FF FF gives pc = 12 with no range check. -/
theorem test_unassigned_four : after (fun t => t.pc) (at' 0x10 [0xC3] []) = some 0x14 := by decide
theorem test_unassigned_unchecked : after (fun t => (t.pc, t.status)) (at' 0x10 [0x7F, 0xFF, 0xFF] []) =
    some (0x12, .running) := by decide
/-- V-CYC: A0 08 C8 reports 8, A0 00 C8 reports 200. -/
theorem test_first_bad_operand : after (fun t => (t.status, t.pc)) (at' 0x10 [0xA0, 0x08, 0xC8] []) =
    some (.aborted (.registerIndexOutOfRange 8), 0x10) := by decide
theorem test_second_bad_operand : after (fun t => t.status) (at' 0x10 [0xA0, 0x00, 0xC8] []) =
    some (.aborted (.registerIndexOutOfRange 200)) := by decide
/-- V-EXC: at pc = FE the fetch comes first; A4 09 01 with x[1] = 0 reports 9 before the divisor. -/
theorem test_priority_address : after (fun t => t.status) (at' 0xFE [0xA4, 0x09] []) =
    some (.aborted (.addressOutOfRange 256)) := by decide
theorem test_priority_index : after (fun t => (t.status, t.out)) (at' 0x10 [0xA4, 0x09, 0x01] []) =
    some (.aborted (.registerIndexOutOfRange 9), []) := by decide
/-- R80: no step from halted or aborted. -/
theorem test_no_step_after_halt : after (fun t => t.pc) { State.reset with status := .halted } = none := by decide
theorem test_no_step_after_abort :
    after (fun t => t.pc) { State.reset with status := .aborted (.addressOutOfRange 256) } = none := by decide
/-- withFetchWord stores the instruction at pc: SUB R1,R2. -/
theorem test_with_fetch_word : after (fun t => t.getReg 1) ((at' 0x20 [] [(1, 5), (2, 1)]).withFetchWord 24 0x0201A1) =
    some 4 := by decide

/-! ## The instructions, at most two tests each (V-ALU, V-NOT, V-CMP, V-LPH, V-STK, V-JMP) -/

theorem test_add_wraps : after (fun t => (t.getReg 0, t.getReg 1, t.pc)) (at' 0 [0xA0, 0, 1] [(0, 0xC8), (1, 0x64)]) =
    some (0x2C, 0x64, 3) := by decide
theorem test_add_same : after (fun t => t.getReg 0) (at' 0 [0xA0, 0, 0] [(0, 0x80)]) = some 0 := by decide
theorem test_sub_wraps : after (fun t => t.getReg 0) (at' 0 [0xA1, 0, 1] [(0, 0x05), (1, 0x09)]) = some 0xFC := by
  decide
theorem test_mul_low_byte : after (fun t => t.getReg 0) (at' 0 [0xA2, 0, 1] [(0, 0xFF), (1, 0xFF)]) = some 0x01 := by
  decide
theorem test_mul_not_square : after (fun t => t.getReg 0) (at' 0 [0xA2, 0, 1] [(0, 8), (1, 9)]) = some 0x48 := by decide
theorem test_and : after (fun t => t.getReg 0) (at' 0 [0xA8, 0, 1] [(0, 0xCC), (1, 0xAA)]) = some 0x88 := by decide
theorem test_or : after (fun t => t.getReg 0) (at' 0 [0xAA, 0, 1] [(0, 0xCC), (1, 0xAA)]) = some 0xEE := by decide
theorem test_xor : after (fun t => t.getReg 0) (at' 0 [0xAB, 0, 1] [(0, 0xCC), (1, 0xAA)]) = some 0x66 := by decide
theorem test_shl : after (fun t => t.getReg 0) (at' 0 [0xAC, 0, 1] [(0, 0x81), (1, 1)]) = some 0x02 := by decide
theorem test_shl_eight : after (fun t => t.getReg 0) (at' 0 [0xAC, 0, 1] [(0, 0x01), (1, 8)]) = some 0 := by decide
theorem test_shr_logical : after (fun t => t.getReg 0) (at' 0 [0xAD, 0, 1] [(0, 0x80), (1, 7)]) = some 0x01 := by decide
theorem test_shr_whole_byte : after (fun t => t.getReg 0) (at' 0 [0xAD, 0, 1] [(0, 0xFF), (1, 0xFF)]) = some 0 := by
  decide
theorem test_mod : after (fun t => t.getReg 0) (at' 0 [0xA4, 0, 1] [(0, 0xFA), (1, 7)]) = some 5 := by decide
theorem test_mod_zero : after (fun t => (t.getReg 0, t.out, t.status, t.pc)) (at' 0 [0xA4, 0, 1] [(0, 0x2C)]) =
    some (0x2C, [.divZeroDiag], .halted, 3) := by decide
theorem test_cmp_unsigned : after (fun t => t.fl) (at' 0 [0xA7, 0, 1] [(0, 0x80), (1, 0x7F)]) =
    some ⟨false, true, false⟩ := by decide
theorem test_cmp_less : after (fun t => t.fl) (at' 0 [0xA7, 0, 1] [(0, 0x00), (1, 0xFF)]) =
    some ⟨true, false, false⟩ := by decide
theorem test_not : after (fun t => (t.getReg 2, t.pc)) (at' 0x10 [0x69, 0x02, 0xFF] [(2, 0xA5)]) =
    some (0x5A, 0x12) := by decide
theorem test_ldi_sp : after (fun t => (t.getReg 7, t.pc)) (at' 0x10 [0x82, 0x07, 0xFF] []) = some (0xFF, 0x13) := by
  decide
theorem test_prn : after (fun t => (t.out, t.pc)) (at' 0 [0x47, 6] [(6, 0xC8)]) = some ([.print 200], 2) := by decide
theorem test_hlt : after (fun t => (t.status, t.pc)) (at' 0x20 [0x01] []) = some (.halted, 0x21) := by decide
theorem test_push_wraps : after (fun t => (t.getReg 7, t.mem.get 0xFF)) (at' 0 [0x45, 1] [(7, 0), (1, 0xAA)]) =
    some (0xFF, 0xAA) := by decide
theorem test_push_r7 : after (fun t => (t.getReg 7, t.mem.get 0xF3)) (at' 0 [0x45, 7] []) = some (0xF3, 0xF3) := by
  decide
theorem test_pop_wraps : after (fun t => (t.getReg 1, t.getReg 7))
    { at' 0 [0x46, 1] [(7, 0xFF)] with mem := [(0, 0x46), (1, 1), (0xFF, 0xAA)] } = some (0xAA, 0) := by decide
theorem test_pop_r7 : after (fun t => t.getReg 7)
    { at' 0 [0x46, 7] [(7, 0xF3)] with mem := [(0, 0x46), (1, 7), (0xF3, 0x40)] } = some 0x41 := by decide
theorem test_call : after (fun t => (t.getReg 7, t.mem.get 0xF3, t.pc)) (at' 0x06 [0x50, 1] [(1, 0x0B)]) =
    some (0xF3, 0x08, 0x0B) := by decide
theorem test_call_r7 : after (fun t => (t.getReg 7, t.mem.get 0xF3, t.pc)) (at' 0x06 [0x50, 7] []) =
    some (0xF3, 0x08, 0xF3) := by decide
theorem test_ret : after (fun t => (t.pc, t.getReg 7))
    { at' 0 [] [(7, 0xFF)] with mem := [(0, 0x11), (0xFF, 0x20)] } = some (0x20, 0) := by decide
theorem test_ret_empty : after (fun t => (t.pc, t.getReg 7)) (at' 4 [0x11] []) = some (0, 0xF5) := by decide
theorem test_jmp : after (fun t => t.pc) (at' 0x30 [0x54, 2] [(2, 0xFE)]) = some 0xFE := by decide
theorem test_jeq_taken : after (fun t => t.pc) { at' 0x10 [0x55, 2] [(2, 0x30)] with fl := ⟨false, false, true⟩ } =
    some 0x30 := by decide
theorem test_jeq_fresh_not_taken : after (fun t => t.pc) (at' 0x10 [0x55, 2] [(2, 0x30)]) = some 0x12 := by decide
theorem test_jne_only_eq : after (fun t => t.pc) { at' 0x18 [0x56, 4] [(4, 0x0F)] with fl := ⟨true, false, false⟩ } =
    some 0x0F := by decide
theorem test_jne_not_taken : after (fun t => t.pc) { at' 0x18 [0x56, 4] [(4, 0x0F)] with fl := ⟨false, false, true⟩ } =
    some 0x1A := by decide

/-! ## Witnesses: for every statement with hypotheses, a state and operands that meet all of them together -/

/-- The machine at 10 about to run LDI R0,8. -/
def ldiState : State := at' 0x10 [0x82, 0, 8] []

/-- The machine at 10 about to run CMP R0,R1 with unequal values. -/
def cmpState : State := at' 0x10 [0xA7, 0, 1] [(0, 3)]

/-- The machine at 10 about to run CALL R1, with a RET at its target 20. -/
def callState : State := { at' 0x10 [] [(1, 0x20)] with mem := [(0x10, 0x50), (0x11, 1), (0x20, 0x11)] }

theorem test_witness_ldiState_runs : Runs Config.default ldiState (.ldi 0 8) :=
  ⟨0x82, 0, 8, ⟨rfl, by decide, rfl, rfl, rfl⟩, rfl⟩
theorem test_witness_cmpState_runs : Runs Config.default cmpState (.cmp 0 1) :=
  ⟨0xA7, 0, 1, ⟨rfl, by decide, rfl, rfl, rfl⟩, rfl⟩

theorem test_witness_ImageStandsInMemory : (List.replicate 256 (1 : Byte)).length ≤ 256 ∧ (255 < 256) ∧ 256 ≤ 256 :=
  ⟨List.length_replicate.le, by decide, by decide⟩
theorem test_witness_WriteSetsOneCellOrRaises : State.reset.mem.wf ∧ 255 < 256 ∧ 256 ≤ 256 := by decide
theorem test_witness_MemoriesThatReadAlikeAreEqual : Memory.wf [(0, 1), (255, 2)] ∧
    ∀ n, n < 256 → Memory.get [(0, 1), (255, 2)] n = Memory.get [(0, 1), (255, 2)] n := ⟨by decide, fun _ _ => rfl⟩
theorem test_witness_DecodeReadsBackEveryEncoding : Config.default.Valid ∧
    encode Config.default (.prn 255) ++ [0xFF] = [0x47, 255, 0xFF] := ⟨Config.default_valid, rfl⟩
theorem test_witness_DecodedBytesBeginWithTheEncoding : Config.default.Valid ∧
    decode Config.default 0x82 0 255 = .ok (.ldi 0 255) := ⟨Config.default_valid, rfl⟩
theorem test_witness_NoAssignedOpcodeHasThreeOperands : Config.default.Valid := Config.default_valid
theorem test_witness_UnusedOperandBytesAreIgnored : Config.default.Valid ∧ Mnemonic.prn.operandCount ≤ 1 ∧
    Mnemonic.hlt.operandCount = 0 := ⟨Config.default_valid, by decide, rfl⟩
theorem test_witness_StepRunsTheDecodedInstruction : Runs Config.default ldiState (.ldi 0 8) :=
  test_witness_ldiState_runs
theorem test_witness_UnassignedOpcodeOnlyAdvances : Fetches (at' 253 [0xC3, 1, 2] []) 0xC3 1 2 ∧
    ∀ m, Config.default.opc m ≠ 0xC3 := ⟨⟨rfl, by decide, rfl, rfl, rfl⟩, fun m => by cases m <;> decide⟩
theorem test_witness_FetchPastTheEndAborts : (at' 254 [] []).status = .running ∧ 254 ≤ (at' 254 [] []).pc ∧
    (at' 254 [] []).pc ≤ 256 ∧ (at' 257 [] []).status = .running ∧ 254 ≤ (at' 257 [] []).pc ∧
    256 ≤ (at' 257 [] []).pc ∧ fetchAbortAddr 256 = 256 := by decide
theorem test_witness_ExactlyARunningMachineSteps : State.reset.status = .running ∧ after State.pc State.reset = some 1 := by
  decide
theorem test_witness_TerminalStatesAnswerByName :
    ({ State.reset with status := .aborted (.addressOutOfRange 256) } : State).status =
      .aborted (.addressOutOfRange 256) ∧ ({ State.reset with status := .halted } : State).status = .halted :=
  ⟨rfl, rfl⟩
theorem test_witness_PcAdvancesByTheOpcodesLength : Config.default.Valid ∧
    ∃ t, stepWith Config.default ldiState = .next t ∧ (∀ cause, t.status ≠ .aborted cause) ∧
      ∀ i, Runs Config.default ldiState i → isControl i = true →
        (∃ a, i = .jeq a ∧ ldiState.fl.eq = false) ∨ (∃ a, i = .jne a ∧ ldiState.fl.eq = true) := by
  refine ⟨Config.default_valid, _, rfl, ?_, ?_⟩
  · intro cause h
    cases h
  · intro i hi hc
    rw [hi.unique test_witness_ldiState_runs] at hc
    cases hc
theorem test_witness_PcAdvances_untaken_jump : ∃ t, stepWith Config.default (at' 0x10 [0x55, 2] []) = .next t ∧
    (∀ cause, t.status ≠ .aborted cause) ∧ ∀ i, Runs Config.default (at' 0x10 [0x55, 2] []) i → isControl i = true →
      (∃ a, i = .jeq a ∧ (at' 0x10 [0x55, 2] []).fl.eq = false) ∨
        (∃ a, i = .jne a ∧ (at' 0x10 [0x55, 2] []).fl.eq = true) := by
  refine ⟨_, rfl, ?_, ?_⟩
  · intro cause h
    cases h
  · intro i hi _
    exact Or.inl ⟨2, hi.unique ⟨0x55, 2, 0, ⟨rfl, by decide, rfl, rfl, rfl⟩, rfl⟩, rfl⟩
theorem test_witness_FirstBadOperandAborts : badOperand (.add 8 200) = some 8 ∧ badOperand (.add 7 8) = some 8 ∧
    badOperand (.jeq 9) = some 9 := by decide
theorem test_witness_WellFormedInstructionsComplete : (Instr.cmp 7 0).wf = true ∧ Instr.hlt.wf = true := by decide
theorem test_witness_AnAbortingStepChangesOnlyTheStatus :
    after State.status (at' 0x10 [0x47, 8] []) = some (.aborted (.registerIndexOutOfRange 8)) ∧
      after State.status (at' 255 [] []) = some (.aborted (.addressOutOfRange 256)) := by decide
theorem test_witness_EveryWayARunStops : after State.status ldiState = some .running ∧
    after State.status (at' 253 [0x01] []) = some .halted ∧
    after State.status (at' 253 [0xA4, 7, 6] []) = some .halted ∧
    after State.status (at' 254 [] []) = some (.aborted (.addressOutOfRange 256)) ∧
    after State.status (at' 253 [0xA4, 7, 8] []) = some (.aborted (.registerIndexOutOfRange 8)) := by decide
theorem test_witness_ConditionsAreReportedInOrder : Config.default.Valid ∧ (at' 254 [0xA4] []).status = .running ∧
    254 ≤ (at' 254 [0xA4] []).pc ∧ Fetches (at' 253 [0xA4, 8, 8] []) (Config.default.opc .mod) 8 8 ∧
    Fetches (at' 253 [0xA4, 7, 8] []) (Config.default.opc .mod) 7 8 ∧
    Fetches (at' 253 [0xA4, 7, 6] []) (Config.default.opc .mod) 7 6 ∧ (at' 253 [0xA4, 7, 6] []).getReg 6 = 0 :=
  ⟨Config.default_valid, rfl, by decide, ⟨rfl, by decide, rfl, rfl, rfl⟩, ⟨rfl, by decide, rfl, rfl, rfl⟩,
    ⟨rfl, by decide, rfl, rfl, rfl⟩, by decide⟩
/-- Operand bytes at the ends of both ranges: for AddSubMulAreModulo256, AndOrXorActBitByBit, ShiftsTakeTheWholeByte,
NotInvertsTheByte, CmpSetsExactlyOneFlag, LdiLoadsTheImmediate, PrnAppendsOnePrintEvent, HltHaltsAndAdvances,
PopLoadsThenIncrements, RetPopsIntoPc, JmpSetsPc, ConditionalJumpsFollowEq; and a shift by 8 places. -/
theorem test_witness_operand_bytes : Config.default.Valid ∧ (7 : Byte).toNat < 8 ∧ 8 ≤ (8 : Byte).toNat ∧
    8 ≤ ((at' 0 [] [(1, 8)]).getReg (regOf 1 (by decide))).toNat := ⟨Config.default_valid, by decide, by decide, by decide⟩
theorem test_witness_ModGivesTheRemainder : (State.reset.getReg (regOf 7 (by decide))) ≠ 0 := by decide
theorem test_witness_ModByZeroHaltsGracefully : State.reset.getReg (regOf 6 (by decide)) = 0 := by decide
theorem test_witness_PushDecrementsThenStores : (at' 0 [0x45, 7] [(7, 0)]).mem.wf ∧ regOf 7 (by decide) = 7 ∧
    regOf 6 (by decide) ≠ 7 := by decide
theorem test_witness_PushThenPopRoundTrips : State.reset.mem.wf ∧ regOf 6 (by decide) ≠ 7 ∧ regOf 0 (by decide) ≠ 7 := by
  decide
/-- PUSH R0 and PUSH R7 at 251 store at 253, 254 and 255; CALL R1 at 253 to 253 stores at 253, 254 and 255; CALL R7. -/
theorem test_witness_NextFetchSeesThePushedByte : [0, 1, 2].all (fun k =>
      let s := at' 251 [0x45, 0] [(7, BitVec.ofNat 8 (254 + k))]
      let t := at' 253 [0x50, 1] [(1, 253), (7, BitVec.ofNat 8 (254 + k))]
      decide (s.mem.wf ∧ s.pc ≤ 251 ∧ (s.sp.toNat + 255) % 256 = s.pc + 2 + k ∧
        t.mem.wf ∧ t.pc ≤ 253 ∧ regOf 1 (by decide) ≠ 7 ∧ (t.getReg (regOf 1 (by decide))).toNat = 253 ∧
        (t.sp.toNat + 255) % 256 = 253 + k)) = true ∧
    regOf 7 (by decide) = 7 ∧ ((at' 253 [0x50, 7] []).sp.toNat + 255) % 256 = 243 + 0 := by decide
/-- R141: the fetch after CALL R7 at 10 reads the return address 12 as its opcode byte. -/
theorem test_call_r7_then_fetch : after (fun t => (fetch t).toOption.map Prod.fst) (at' 0x10 [0x50, 7] []) =
    some (some 0x12) := by decide
theorem test_witness_CallPushesTheReturnAddress : (at' 253 [0x50, 7] []).mem.wf ∧ (at' 253 [0x50, 7] []).pc ≤ 253 ∧
    (7 : Byte).toNat < 8 ∧ 8 ≤ (8 : Byte).toNat := by decide
theorem test_witness_CallThenRetReturns : Config.default.Valid ∧ callState.mem.wf ∧
    Fetches callState (Config.default.opc .call) 1 0 ∧ regOf 1 (by decide) ≠ 7 ∧
    (callState.getReg (regOf 1 (by decide))).toNat ≤ 253 ∧
    (callState.getReg (regOf 1 (by decide))).toNat ≠ (callState.sp.toNat + 255) % 256 ∧
    callState.mem.get (callState.getReg (regOf 1 (by decide))).toNat = Config.default.opc .ret :=
  ⟨Config.default_valid, by decide, ⟨rfl, by decide, rfl, rfl, rfl⟩, by decide, by decide, by decide, by decide⟩
theorem test_witness_FlagsAreCmpsAndOnlyEqIsRead :
    (∃ t, stepWith Config.default cmpState = .next t ∧ t.fl ≠ cmpState.fl) ∧
    (∃ t, exec (.jeq 7) State.reset = .next t) ∧ (⟨true, true, false⟩ : Flags).eq = State.reset.fl.eq ∧
    badOperand (.cmp 7 7) = none ∧ ∃ t, exec (.cmp 7 7) State.reset = .next t :=
  ⟨⟨_, rfl, by decide⟩, ⟨_, rfl⟩, rfl, rfl, _, rfl⟩
theorem test_witness_OnlyDestinationRegistersChange : ∃ t, exec (.pop 7) State.reset = .next t := ⟨_, rfl⟩
theorem test_witness_OnlyPushAndCallWriteMemory : ∃ t, exec (.push 7) State.reset = .next t := ⟨_, rfl⟩
theorem test_witness_OnlyPrnAndZeroDivisorsEmit : after State.out (at' 253 [0x47, 7] []) = some [.print 0xF4] ∧
    after State.out (at' 253 [0xA4, 7, 6] []) = some [.divZeroDiag] ∧ after State.out ldiState = some [] := by decide
theorem test_witness_StepKeepsTheInvariant : ldiState.Inv ∧ ∃ t, stepWith Config.default ldiState = .next t :=
  ⟨⟨by decide, by decide, by decide, by decide⟩, _, rfl⟩
theorem test_witness_RunsStopOnlyHaltedOrAborted :
    ∀ t, Host.Core.run core 1 { State.reset with status := .halted } ≠ .next t := by
  intro t h
  obtain ⟨u, hu, -⟩ := next_of_run_succ h
  cases hu
theorem test_witness_OutputOnlyGrowsAlongARun : ∃ t, step ldiState = .next t ∧ Reaches ldiState t :=
  ⟨_, rfl, 1, run_succ_of_next rfl⟩
theorem test_witness_PlacedInstructionRunsNext : State.reset.mem.wf ∧ State.reset.status = .running ∧
    State.reset.pc ≤ 253 ∧ decodeTableWord 24 0x0100A0 = some (.add 0 1) := by decide

end Sys2Proof.Tests
end

section
/-! PROOFS. The flags (10_state.md R27): which instruction writes them, and what an instruction does when they are
replaced by others. -/

namespace Sys2Proof.Machine

variable {s t : State} {i : Instr}

/-! ## The abort of a bad operand, in every state -/

/-- One register operand that fails CHECK raises (R85). -/
theorem withReg_of_bad {a v : Byte} (k : Fin Config.numRegs → Result)
    (h : [a].find? (fun v => !validIndex v) = some v) :
    withReg a s k = raise (.registerIndexOutOfRange v) s := by
  rcases Nat.lt_or_ge a.toNat 8 with ha | ha
  · simp [validIndex, ha] at h
  · obtain rfl : a = v := by simpa [validIndex, ha] using h
    exact withReg_error ha k

/-- Of two register operands, the first that fails CHECK raises (R85). -/
theorem withRegs_of_bad {a b v : Byte} (k : Fin Config.numRegs → Fin Config.numRegs → Result)
    (h : [a, b].find? (fun v => !validIndex v) = some v) :
    withRegs a b s k = raise (.registerIndexOutOfRange v) s := by
  rcases Nat.lt_or_ge a.toNat 8 with ha | ha
  · have hb : [b].find? (fun v => !validIndex v) = some v := by
      simpa [validIndex, ha] using h
    exact (withReg_ok ha _).trans (withReg_of_bad _ hb)
  · obtain rfl : a = v := by simpa [validIndex, ha] using h
    exact withRegs_error_left b ha k

/-- The first bad operand aborts the instruction, in every state (R85, R162). -/
theorem exec_of_badOperand {v : Byte} (s : State) (h : badOperand i = some v) : AbortsOn i s v := by
  cases i
  case hlt | ret => cases h
  case push | pop | prn | call | jmp | jeq | jne | not | ldi => exact withReg_of_bad _ h
  case add | sub | mul | mod | cmp | and | or | xor | shl | shr => exact withRegs_of_bad _ h

/-! ## Who writes the flags -/

/-- Every effect but CMP's keeps the flags. -/
theorem Effect.fl_eq_or_cmp (h : Effect s i t) : t.fl = s.fl ∨ ∃ a b, i = .cmp a b := by
  cases h
  case cmp a b _ _ => exact .inr ⟨a, b, rfl⟩
  all_goals exact .inl rfl

/-- Every instruction but CMP keeps the flags, an abort included. -/
theorem exec_fl_eq_or_cmp (h : exec i s = .next t) : t.fl = s.fl ∨ ∃ a b, i = .cmp a b := by
  rcases exec_cases h with he | ⟨v, -, rfl⟩
  · exact he.fl_eq_or_cmp
  · exact .inl rfl

/-- A step that changes the flags has run a CMP: an abort in FETCH and an unassigned opcode keep them. -/
theorem runs_cmp_of_fl_ne {c : Config} (h : stepWith c s = .next t) (hfl : t.fl ≠ s.fl) :
    ∃ a b, Runs c s (.cmp a b) := by
  obtain ⟨-, ⟨-, rfl⟩ | ⟨i, hi, he⟩ | ⟨-, -, rfl⟩⟩ := stepWith_cases h
  · exact absurd rfl hfl
  · obtain ⟨a, b, rfl⟩ := (exec_fl_eq_or_cmp he).resolve_left hfl
    exact ⟨a, b, hi⟩
  · exact absurd rfl hfl

/-! ## Who reads the flags -/

/-- CMP's effect does not depend on the flags it overwrites. -/
theorem Effect.cmp_withFl {a b : Byte} (f : Flags) (h : Effect s (.cmp a b) t) :
    Effect { s with fl := f } (.cmp a b) t := by
  cases h with
  | cmp ha hb => exact .cmp (s := { s with fl := f }) ha hb

/-- With the flags replaced by others, which agree on EQ for JEQ and JNE, an instruction has the same effect but for
the flags: the four constructors for the two conditional jumps are the only ones with a premise on the flags. -/
theorem Effect.withFl (f : Flags) (h : Effect s i t) (hf : (∃ a, i = .jeq a ∨ i = .jne a) → f.eq = s.fl.eq) :
    ∃ u, Effect { s with fl := f } i u ∧ ({ u with fl := t.fl } : State) = t := by
  cases h
  case jeqTaken a ha h => exact ⟨_, .jeqTaken ha ((hf ⟨a, .inl rfl⟩).trans h), rfl⟩
  case jeqNot a ha h => exact ⟨_, .jeqNot ha ((hf ⟨a, .inl rfl⟩).trans h), rfl⟩
  case jneTaken a ha h => exact ⟨_, .jneTaken ha ((hf ⟨a, .inr rfl⟩).trans h), rfl⟩
  case jneNot a ha h => exact ⟨_, .jneNot ha ((hf ⟨a, .inr rfl⟩).trans h), rfl⟩
  case hlt => exact ⟨_, .hlt, rfl⟩
  case ret => exact ⟨_, .ret, rfl⟩
  case push ha => exact ⟨_, .push ha, rfl⟩
  case pop ha => exact ⟨_, .pop ha, rfl⟩
  case prn ha => exact ⟨_, .prn ha, rfl⟩
  case call ha => exact ⟨_, .call ha, rfl⟩
  case jmp ha => exact ⟨_, .jmp ha, rfl⟩
  case not ha => exact ⟨_, .not ha, rfl⟩
  case ldi ha => exact ⟨_, .ldi ha, rfl⟩
  case add ha hb => exact ⟨_, .add ha hb, rfl⟩
  case sub ha hb => exact ⟨_, .sub ha hb, rfl⟩
  case mul ha hb => exact ⟨_, .mul ha hb, rfl⟩
  case mod ha hb h => exact ⟨_, .mod ha hb h, rfl⟩
  case modZero ha hb h => exact ⟨_, .modZero ha hb h, rfl⟩
  case cmp ha hb => exact ⟨_, .cmp ha hb, rfl⟩
  case and ha hb => exact ⟨_, .and ha hb, rfl⟩
  case or ha hb => exact ⟨_, .or ha hb, rfl⟩
  case xor ha hb => exact ⟨_, .xor ha hb, rfl⟩
  case shl ha hb => exact ⟨_, .shl ha hb, rfl⟩
  case shr ha hb => exact ⟨_, .shr ha hb, rfl⟩

/-- The same for execution, where the abort of a bad operand reads no flag either. -/
theorem exec_withFl (f : Flags) (h : exec i s = .next t) (hf : (∃ a, i = .jeq a ∨ i = .jne a) → f.eq = s.fl.eq) :
    ∃ u, exec i { s with fl := f } = .next u ∧ ({ u with fl := t.fl } : State) = t := by
  rcases exec_cases h with he | ⟨v, hv, rfl⟩
  · obtain ⟨u, hu, hut⟩ := he.withFl f hf
    exact ⟨u, hu.exec_eq, hut⟩
  · exact ⟨_, exec_of_badOperand _ hv, rfl⟩

/-- A CMP that passes CHECK gives the very same next state whatever the flags were (R104). -/
theorem exec_cmp_withFl {a b : Byte} (f : Flags) (hok : badOperand (.cmp a b) = none)
    (h : exec (.cmp a b) s = .next t) : exec (.cmp a b) { s with fl := f } = .next t := by
  rcases exec_cases h with he | ⟨v, hv, -⟩
  · exact (he.cmp_withFl f).exec_eq
  · rw [hok] at hv
    cases hv

/-- Settles O41, by the effect of each instruction: only CMP's has other flags than before, and only those of JEQ and
JNE have a premise on a flag, EQ. -/
theorem flagsAreCmpsAndOnlyEqIsRead : Obligations.FlagsAreCmpsAndOnlyEqIsRead :=
  ⟨fun _ _ _ h hfl => runs_cmp_of_fl_ne h hfl, fun _ _ _ f h hf => exec_withFl f h hf,
    fun _ _ f _ _ hok h => exec_cmp_withFl f hok h⟩

end Sys2Proof.Machine
end

section
/-! PROOFS. Memory (20_memory.md R41, R42): what a read returns after the loader has placed the image, and after a
write. -/

namespace Sys2Proof.Machine

variable {s : State}

/-! ## The image -/

/-- The cells of the booted machine hold the image, and 0 past its end (R191, R192). -/
theorem get_boot (image : List Byte) {n : Nat} (hn : n < 256) :
    (State.boot image).mem.get n = image.getD n 0 := by
  have hplace := Memory.get_place image 0 n Memory.wf_nil hn
  rcases Nat.lt_or_ge n image.length with hlt | hge
  · rw [dif_pos ⟨n.zero_le, hlt⟩] at hplace
    exact hplace.trans (List.getD_eq_getElem _ _ hlt).symm
  · rw [dif_neg fun h => Nat.not_lt.2 hge h.2] at hplace
    exact hplace.trans (List.getD_eq_default _ _ hge).symm

/-- Settles O2, by what a placed list of bytes reads as: the loader changes no field of the reset state but memory. -/
theorem imageStandsInMemory : Obligations.ImageStandsInMemory := fun image _ =>
  ⟨fun _ hn => (memRead_ok hn).trans (congrArg Except.ok (get_boot image hn)), fun _ hn => memRead_error hn,
    Memory.place_wf image 0 Memory.wf_nil, fun _ _ => rfl, rfl, rfl, rfl, rfl⟩

/-! ## A write -/

/-- Reading the written cell gives the byte written (R41, R42). -/
theorem memRead_withMem_set_self (hs : s.mem.wf) {n : Nat} (hn : n < 256) (v : Byte) :
    memRead n { s with mem := s.mem.set n v } = .ok v := by
  rw [memRead_ok hn, Memory.get_set_self hs]

/-- Every address but the written one reads as before, one that raises included (R42). -/
theorem memKept_withMem_set (s : State) (n : Nat) (v : Byte) : MemKept [n] s { s with mem := s.mem.set n v } := by
  intro k hk
  have hne : k ≠ n := List.ne_of_not_mem_cons hk
  simp only [memRead, Memory.get_set_other v hne]

/-- Settles O3, by the two outcomes of a write: below 256 an update of memory alone, from there on the cause. -/
theorem writeSetsOneCellOrRaises : Obligations.WriteSetsOneCellOrRaises := by
  intro s n v hs
  constructor
  · intro hn
    exact ⟨_, memWrite_ok v hn, memRead_withMem_set_self hs hn v, memKept_withMem_set s n v,
      fun _ _ => rfl, rfl, rfl, rfl, rfl⟩
  · intro hn
    exact ⟨memWrite_error v hn, memRead_error hn⟩

end Sys2Proof.Machine
end

section
/-! PROOFS. The two-register operations (41_alu.md R100 to R107): the parts of `TwoRegisterRule` that hold of all of
them, and the results of ADD, SUB, MUL, AND, OR and XOR. -/

namespace Sys2Proof.Machine

/-! ## The parts of a rule: encoding, abort, register frame -/

/-- An instruction's encoding: the opcode byte of the default table, and the decoder's answer (R62, R65, R66). -/
theorem encodedBy_build {m : Mnemonic} {byte : Byte} (hbyte : Config.default.opc m = byte) :
    EncodedBy m byte (Instr.build m) :=
  ⟨hbyte, fun _ hc a b => decode_opc hc m a b⟩

/-- An instruction with a register operand of 8 or more raises, in every state (R85, R160). -/
theorem raisesIndex_regOperands {i : Instr} (s : State) (h : ∃ v ∈ i.regOperands, 8 ≤ v.toNat) :
    RaisesIndex i s i.regOperands := by
  obtain ⟨w, hw, hw8⟩ := h
  have hsome : (badOperand i).isSome := List.find?_isSome.2 ⟨w, hw, by simpa [validIndex] using hw8⟩
  obtain ⟨v, hv⟩ := Option.isSome_iff_exists.1 hsome
  have hv8 : 8 ≤ v.toNat := by simpa [validIndex] using List.find?_some hv
  exact ⟨_, v, List.mem_of_find?_eq_some hv, hv8, exec_of_badOperand s hv, rfl⟩

/-- Writing one register and advancing keeps every other register. -/
theorem regsKept_setReg_advance (s : State) (r : Fin Config.numRegs) (v : Byte) (n : Nat) :
    RegsKept [r] s ((s.setReg r v).advance n) := fun q hq =>
  (State.advance_getReg _ q n).trans (State.getReg_setReg_other s r q v (List.ne_of_not_mem_cons hq))

/-! ## The shared form -/

/-- A two-register operation whose effect is `x[a] <- f x[a] x[b]`, `pc <- pc + 3` follows the rule for every relation
that `f` satisfies (R100). -/
theorem twoRegisterRule_of_effect {m : Mnemonic} {byte : Byte} {f : Byte → Byte → Byte}
    {holds : Byte → Byte → Byte → Prop} (hbyte : Config.default.opc m = byte)
    (hops : ∀ a b, (Instr.build m a b).regOperands = [a, b])
    (heff : ∀ (s : State) (a b : Byte) (ha : a.toNat < 8) (hb : b.toNat < 8), Effect s (Instr.build m a b)
      ((s.setReg (regOf a ha) (f (s.getReg (regOf a ha)) (s.getReg (regOf b hb)))).advance 3))
    (hf : ∀ p q, holds p q (f p q)) : TwoRegisterRule m byte (Instr.build m) holds := by
  refine ⟨encodedBy_build hbyte, fun s a b => ⟨fun ha hb => ?_, fun hbad => ?_⟩⟩
  · refine ⟨_, (heff s a b ha hb).exec_eq, ?_, rfl, regsKept_setReg_advance _ _ _ _, fun _ _ => rfl, rfl, rfl, rfl⟩
    rw [State.advance_getReg, State.getReg_setReg_self]
    exact hf _ _
  · rw [← hops a b]
    exact raisesIndex_regOperands s (by simpa [hops] using hbad)

/-! ## The results modulo 256 -/

theorem aluAdd_toNat (p q : Byte) : (aluAdd p q).toNat = (p.toNat + q.toNat) % 256 := BitVec.toNat_add p q

theorem aluSub_toNat (p q : Byte) : (aluSub p q).toNat = (p.toNat + 256 - q.toNat) % 256 := by
  have hq := q.isLt
  rw [aluSub, BitVec.toNat_sub]
  omega

theorem aluMul_toNat (p q : Byte) : (aluMul p q).toNat = (p.toNat * q.toNat) % 256 := BitVec.toNat_mul p q

/-- Settles O22, by the shared form: the byte operations are the natural-number ones modulo 256. -/
theorem addSubMulAreModulo256 : Obligations.AddSubMulAreModulo256 :=
  ⟨twoRegisterRule_of_effect rfl (fun _ _ => rfl) (fun _ _ _ => .add) aluAdd_toNat,
    twoRegisterRule_of_effect rfl (fun _ _ => rfl) (fun _ _ _ => .sub) aluSub_toNat,
    twoRegisterRule_of_effect rfl (fun _ _ => rfl) (fun _ _ _ => .mul) aluMul_toNat⟩

/-! ## The results bit by bit -/

theorem getLsbD_aluAnd (p q : Byte) (k : Nat) : (aluAnd p q).getLsbD k = (p.getLsbD k && q.getLsbD k) :=
  BitVec.getLsbD_and

theorem getLsbD_aluOr (p q : Byte) (k : Nat) : (aluOr p q).getLsbD k = (p.getLsbD k || q.getLsbD k) :=
  BitVec.getLsbD_or

theorem getLsbD_aluXor (p q : Byte) (k : Nat) : (aluXor p q).getLsbD k = (p.getLsbD k ^^ q.getLsbD k) :=
  BitVec.getLsbD_xor

/-- Settles O23, by the shared form: bit `k` of a bitwise operation depends on the two bits `k` alone. -/
theorem andOrXorActBitByBit : Obligations.AndOrXorActBitByBit :=
  ⟨twoRegisterRule_of_effect rfl (fun _ _ => rfl) (fun _ _ _ => .and) fun p q k _ => getLsbD_aluAnd p q k,
    twoRegisterRule_of_effect rfl (fun _ _ => rfl) (fun _ _ _ => .or) fun p q k _ => getLsbD_aluOr p q k,
    twoRegisterRule_of_effect rfl (fun _ _ => rfl) (fun _ _ _ => .xor) fun p q k _ => getLsbD_aluXor p q k⟩

end Sys2Proof.Machine
end

section
/-! PROOFS. Load and print (42_load_print_halt.md R120, R121): LDI writes its immediate byte, PRN appends one event. -/

namespace Sys2Proof.Machine

/-- An instruction whose one register operand is 8 or more raises with that operand (R85, R160). -/
theorem raisesIndex_of_regOperands_singleton {i : Instr} {a : Byte} (s : State) (hops : i.regOperands = [a])
    (ha : 8 ≤ a.toNat) : RaisesIndex i s [a] :=
  hops ▸ raisesIndex_regOperands s ⟨a, hops ▸ List.mem_singleton_self a, ha⟩

/-- Settles O29, by LDI's effect: one register written, then pc moved by 3. -/
theorem ldiLoadsTheImmediate : Obligations.LdiLoadsTheImmediate := by
  refine ⟨encodedBy_build rfl, fun s a b => ⟨fun ha => ?_, raisesIndex_of_regOperands_singleton s rfl⟩⟩
  have hreg : ((s.setReg (regOf a ha) b).advance 3).getReg (regOf a ha) = b :=
    (State.advance_getReg _ _ 3).trans (State.getReg_setReg_self s _ b)
  exact ⟨_, (Effect.ldi ha).exec_eq, hreg, rfl, regsKept_setReg_advance s _ b 3, fun _ _ => rfl, rfl, rfl, rfl⟩

/-- Settles O30, by PRN's effect: one event appended, then pc moved by 2. -/
theorem prnAppendsOnePrintEvent : Obligations.PrnAppendsOnePrintEvent :=
  ⟨encodedBy_build rfl, fun s _ =>
    ⟨fun ha => ⟨_, (Effect.prn ha).exec_eq, rfl, rfl, fun _ _ => rfl, fun _ _ => rfl, rfl, rfl⟩,
      raisesIndex_of_regOperands_singleton s rfl⟩⟩

end Sys2Proof.Machine
end

section
/-! PROOFS. The stack (43_stack.md R130 to R132): the states that a push and a pop leave, and the round trip of the
two. -/

namespace Sys2Proof.Machine

variable (s : State)

/-! ## The state after a push -/

/-- A register other than 7 is pushed as it was: the decrement before the store does not reach it (R130). -/
theorem exec_push_of_ne_spIndex {a : Byte} (ha : a.toNat < 8) (hr : regOf a ha ≠ Config.spIndex) :
    exec (.push a) s = .next ((s.pushed (s.getReg (regOf a ha))).advance 2) := by
  rw [(Effect.push ha).exec_eq, State.decSp_getReg s _ hr]

/-- The pushed byte is what a read at the new stack pointer gives (R130). -/
theorem pushed_mem_get_sp {s : State} (hs : s.mem.wf) (v : Byte) :
    (s.pushed v).mem.get (s.pushed v).sp.toNat = v :=
  (push_mem hs v _).trans (if_pos rfl)

/-- A push changes no cell but the one at the new stack pointer (R130). -/
theorem memKept_pushed (v : Byte) : MemKept [s.decSp.sp.toNat] s (s.pushed v) :=
  memKept_withMem_set s s.decSp.sp.toNat v

/-! ## The state after a pop -/

/-- Writing a register other than 7 does not change by how much the stack pointer moves. -/
theorem setReg_incSp_sp (v : Byte) {r : Fin Config.numRegs} (hr : r ≠ Config.spIndex) :
    (s.setReg r v).incSp.sp = s.incSp.sp := by
  have hsp : (s.setReg r v).sp = s.sp := State.getReg_setReg_other s r _ v hr.symm
  apply BitVec.eq_of_toNat_eq
  rw [State.incSp_sp_toNat, State.incSp_sp_toNat, hsp]

/-- The increment after the write keeps the byte popped into a register other than 7 (R131). -/
theorem setReg_incSp_getReg_self (v : Byte) {r : Fin Config.numRegs} (hr : r ≠ Config.spIndex) :
    (s.setReg r v).incSp.getReg r = v :=
  (State.incSp_getReg _ r hr).trans (State.getReg_setReg_self s r v)

/-! ## The round trip -/

/-- Popping into a register other than 7 right after a push restores the stack pointer and keeps all other
registers (R132). -/
theorem regsKept_pushed_setReg_incSp (v w : Byte) {r : Fin Config.numRegs} (hr : r ≠ Config.spIndex) :
    RegsKept [r] s ((s.pushed v).setReg r w).incSp := by
  intro q hq
  by_cases hsp : q = Config.spIndex
  · rw [hsp]
    exact (setReg_incSp_sp (s.pushed v) w hr).trans (State.incSp_decSp_sp s)
  · calc ((s.pushed v).setReg r w).incSp.getReg q
        = ((s.pushed v).setReg r w).getReg q := State.incSp_getReg _ q hsp
      _ = (s.pushed v).getReg q := State.getReg_setReg_other _ r q w (List.ne_of_not_mem_cons hq)
      _ = s.getReg q := State.decSp_getReg s q hsp

/-- Settles O34, by the two effects: POP reads the cell that PUSH wrote, and its increment undoes the decrement. -/
theorem pushThenPopRoundTrips : Obligations.PushThenPopRoundTrips := by
  intro s a b ha hb hs hra hrb
  have htop := pushed_mem_get_sp hs (s.getReg (regOf a ha))
  have hregs (w : Byte) :
      RegsKept [regOf b hb] s ((s.pushed (s.getReg (regOf a ha))).setReg (regOf b hb) w).incSp :=
    regsKept_pushed_setReg_incSp s _ w hrb
  have hsp : Config.spIndex ∉ [regOf b hb] := fun h => hrb (List.mem_singleton.1 h).symm
  rw [← State.decSp_sp_toNat]
  exact ⟨_, _, exec_push_of_ne_spIndex s ha hra, (Effect.pop hb).exec_eq,
    (setReg_incSp_getReg_self _ _ hrb).trans htop, hregs _ _ hsp,
    (memRead_ok s.decSp.sp.isLt).trans (congrArg Except.ok htop), hregs _, memKept_pushed s _, rfl, rfl, rfl⟩

end Sys2Proof.Machine
end

section
/-! PROOFS. Control transfer (44_control.md R140 to R145): the states that CALL and RET leave, and the return from a
CALL. -/

namespace Sys2Proof.Machine

variable (s : State)

/-! ## Operand check and step -/

/-- An instruction whose one register operand is 8 or more aborts on that operand, with no other effect (R85, R162). -/
theorem abortsOn_of_regOperands_singleton {i : Instr} {a : Byte} (hops : i.regOperands = [a]) (ha : 8 ≤ a.toNat) :
    AbortsOn i s a := by
  have hbad : badOperand i = some a := by simp [badOperand, hops, validIndex, ha]
  exact exec_of_badOperand s hbad

/-- A step of a machine about to run `i` is `i` executed (R81, R84). -/
theorem stepWith_of_runs {s : State} {c : Config} {i : Instr} (h : Runs c s i) : stepWith c s = exec i s := by
  obtain ⟨_, _, _, ⟨hrun, hpc, rfl, rfl, rfl⟩, hdec⟩ := h
  rw [stepWith_running hrun, cycle, fetch_ok hpc, orRaise_ok, execBytes_ok hdec]

/-- A fetched opcode byte of the map is the instruction that runs next. -/
theorem runs_build {s : State} {c : Config} (hc : c.Valid) {m : Mnemonic} {a b : Byte}
    (h : Fetches s (c.opc m) a b) : Runs c s (Instr.build m a b) :=
  ⟨_, _, _, h, decode_opc hc m a b⟩

/-! ## Jumps -/

/-- Settles O38, by JMP's effect: pc written, and nothing else. -/
theorem jmpSetsPc : Obligations.JmpSetsPc :=
  ⟨encodedBy_build rfl, fun s _ =>
    ⟨fun ha => ⟨_, (Effect.jmp ha).exec_eq, rfl, fun _ _ => rfl, fun _ _ => rfl, rfl, rfl, rfl⟩,
      raisesIndex_of_regOperands_singleton s rfl⟩⟩

/-- Settles O39, by the two effects of each conditional jump, one for each value of EQ. -/
theorem conditionalJumpsFollowEq : Obligations.ConditionalJumpsFollowEq := by
  refine ⟨encodedBy_build rfl, encodedBy_build rfl, fun s a => ⟨fun ha => ?_, fun ha =>
    ⟨abortsOn_of_regOperands_singleton s rfl ha, abortsOn_of_regOperands_singleton s rfl ha⟩⟩⟩
  cases heq : s.fl.eq with
  | true =>
    exact ⟨_, _, (Effect.jeqTaken ha heq).exec_eq, (Effect.jneNot ha heq).exec_eq, rfl, rfl,
      fun _ _ => rfl, fun _ _ => rfl, ⟨rfl, rfl, rfl⟩, fun _ _ => rfl, fun _ _ => rfl, rfl, rfl, rfl⟩
  | false =>
    exact ⟨_, _, (Effect.jeqNot ha heq).exec_eq, (Effect.jneTaken ha heq).exec_eq, rfl, rfl,
      fun _ _ => rfl, fun _ _ => rfl, ⟨rfl, rfl, rfl⟩, fun _ _ => rfl, fun _ _ => rfl, rfl, rfl, rfl⟩

/-! ## CALL -/

/-- Where a CALL executes, the address after it fits the byte pushed (R82, R141). -/
theorem returnByte_toNat {s : State} (hpc : s.pc ≤ 253) : (returnByte s).toNat = s.pc + 2 :=
  (BitVec.toNat_ofNat _ 8).trans (Nat.mod_eq_of_lt (by omega))

/-- The registers after a decrement of the stack pointer (R130, R141). -/
theorem decSp_getReg_eq_ite (r : Fin Config.numRegs) :
    s.decSp.getReg r = if r = Config.spIndex then s.decSp.sp else s.getReg r := by
  split
  · next h => rw [h]; rfl
  · next h => exact State.decSp_getReg s r h

/-- Settles O36, by CALL's effect: a push of the return address, then a jump to the register read after it. -/
theorem callPushesTheReturnAddress : Obligations.CallPushesTheReturnAddress := by
  refine ⟨encodedBy_build rfl, fun s a hs => ⟨fun ha hpc => ?_, abortsOn_of_regOperands_singleton s rfl⟩⟩
  have hcell : (s.pushed (returnByte s)).mem.get s.decSp.sp.toNat = returnByte s := pushed_mem_get_sp hs _
  have hregs : RegsKept [Config.spIndex] s s.decSp := fun q hq =>
    State.decSp_getReg s q (List.ne_of_not_mem_cons hq)
  rw [← State.decSp_sp_toNat]
  exact ⟨_, _, (Effect.call ha).exec_eq, rfl, (memRead_ok s.decSp.sp.isLt).trans (congrArg Except.ok hcell),
    returnByte_toNat hpc, congrArg BitVec.toNat (decSp_getReg_eq_ite s _), memKept_pushed s _, hregs, rfl, rfl, rfl⟩

/-! ## RET -/

/-- Settles O37, by RET's effect: pc from the byte at the old stack pointer, then the increment. -/
theorem retPopsIntoPc : Obligations.RetPopsIntoPc :=
  ⟨encodedBy_build rfl, fun s =>
    ⟨_, _, Effect.ret.exec_eq, memRead_ok s.sp.isLt, rfl, State.incSp_sp_toNat _, fun _ _ => rfl,
      fun q hq => State.incSp_getReg _ q (List.ne_of_not_mem_cons hq), rfl, rfl, rfl⟩⟩

/-! ## The return from a CALL -/

/-- Increment after decrement of the stack pointer restores the register file. -/
theorem incSp_decSp_getReg (r : Fin Config.numRegs) : s.decSp.incSp.getReg r = s.getReg r := by
  by_cases hr : r = Config.spIndex
  · rw [hr]
    exact State.incSp_decSp_sp s
  · rw [State.incSp_getReg _ r hr, State.decSp_getReg s r hr]

/-- With a RET at the target of a CALL, and not in the cell that the CALL pushes to, RET runs next. -/
theorem runs_ret_after_push {s : State} {c : Config} (hc : c.Valid) (hrun : s.status = .running) {v target : Byte}
    (hle : target.toNat ≤ 253) (hne : target.toNat ≠ s.decSp.sp.toNat)
    (hret : s.mem.get target.toNat = c.opc .ret) : Runs c ((s.pushed v).jump target) .ret := by
  have hop : (s.pushed v).mem.get target.toNat = c.opc .ret := (Memory.get_set_other v hne).trans hret
  exact ⟨_, _, _, ⟨hrun, hle, hop, rfl, rfl⟩, decode_opc hc .ret _ _⟩

/-- Settles O40, by the effects of the two steps: RET pops the return address that CALL pushed, and its increment
undoes the decrement. -/
theorem callThenRetReturns : Obligations.CallThenRetReturns := by
  intro c hc s a b ha hs hfetch hra hle hne hret
  have hcall : stepWith c s = .next ((s.pushed (returnByte s)).jump (s.getReg (regOf a ha))) := by
    rw [stepWith_of_runs (runs_build hc hfetch), ← State.decSp_getReg s _ hra]
    exact (Effect.call ha).exec_eq
  obtain ⟨hrun, hpc, -⟩ := hfetch
  rw [← State.decSp_sp_toNat] at hne ⊢
  have hstep := (stepWith_of_runs (runs_ret_after_push (v := returnByte s) hc hrun hle hne hret)).trans
    Effect.ret.exec_eq
  have hreturn : ((s.pushed (returnByte s)).mem.get s.decSp.sp.toNat).toNat = s.pc + 2 :=
    (congrArg BitVec.toNat (pushed_mem_get_sp hs _)).trans (returnByte_toNat hpc)
  exact ⟨_, _, hcall, hstep, rfl, hreturn, State.incSp_decSp_sp s, fun q _ => incSp_decSp_getReg s q,
    memKept_pushed s _, rfl, rfl, rfl⟩

end Sys2Proof.Machine
end

section
/-! PROOFS. Reset (10_state.md R33, 70_reset_and_hazards.md R190): what the registers and the cells of the machine read
right after it. -/

namespace Sys2Proof.Machine

/-- Reset leaves 0xF4 in the stack pointer and zero in the seven registers below it (R22, R33). -/
theorem reset_getReg (i : Fin Config.numRegs) :
    State.reset.getReg i = if i = Config.spIndex then Config.spInit else 0 := by
  revert i
  decide

/-- Every address of memory reads zero after reset: no cell is listed (R40, R190). -/
theorem memRead_reset {n : Nat} (hn : n < 256) : memRead n State.reset = .ok 0 :=
  (memRead_ok hn).trans (congrArg Except.ok (Memory.get_nil n))

/-- Settles O1, by what the registers and the cells read; every other field of the reset state is the value of R33. -/
theorem resetHoldsTheSpecValues : Obligations.ResetHoldsTheSpecValues :=
  ⟨reset_getReg, rfl, rfl, rfl, rfl, fun _ hn => memRead_reset hn⟩

end Sys2Proof.Machine
end

section
/-! PROOFS. The decoder and the encoder (30_encoding.md R60 to R68): how the candidate operand bytes and an
instruction's own operands determine each other, and which opcode bytes are assigned. -/

namespace Sys2Proof.Machine

variable {c : Config} {op a b : Byte} {m : Mnemonic} {i : Instr}

/-! ## Operand bytes -/

/-- An instruction uses the first candidate operand bytes, as many as its mnemonic has operands (R62, R65). -/
theorem operands_build (m : Mnemonic) (a b : Byte) : (Instr.build m a b).operands = [a, b].take m.operandCount := by
  cases m <;> rfl

/-- Bytes that begin with the operands of an instruction build it again (R62). -/
theorem build_mnemonic_of_operands_append {rest more : List Byte} (h : i.operands ++ rest = a :: b :: more) :
    Instr.build i.mnemonic a b = i := by
  cases i
  case hlt | ret => rfl
  case push | pop | prn | call | jmp | jeq | jne | not =>
    obtain ⟨rfl, -⟩ := List.cons.inj h
    rfl
  case ldi | add | sub | mul | mod | cmp | and | or | xor | shl | shr =>
    obtain ⟨rfl, htail⟩ := List.cons.inj h
    obtain ⟨rfl, -⟩ := List.cons.inj htail
    rfl

theorem operandCount_le_two (m : Mnemonic) : m.operandCount ≤ 2 := by cases m <;> decide

/-- With the same operand bytes in use, an instruction is the same, whatever else was fetched (R65). -/
theorem build_eq_of_take_eq {a' b' : Byte} (h : [a, b].take m.operandCount = [a', b'].take m.operandCount) :
    Instr.build m a b = Instr.build m a' b' := by
  have happ : (Instr.build m a' b').operands ++ [a, b].drop m.operandCount = [a, b] := by
    rw [operands_build, ← h, List.take_append_drop]
  have hbuild := build_mnemonic_of_operands_append happ
  rwa [Instr.mnemonic_build] at hbuild

/-! ## Round trips -/

/-- The encoding of a built instruction is what was fetched, up to its last operand byte (R60, R62). -/
theorem encode_build (c : Config) (m : Mnemonic) (a b : Byte) :
    encode c (Instr.build m a b) = [c.opc m, a, b].take (m.operandCount + 1) := by
  rw [encode, Instr.mnemonic_build, operands_build, List.take_succ_cons]

/-- Settles O5: the bytes after the opcode begin with the instruction's operands, which build it again. -/
theorem decodeReadsBackEveryEncoding : Obligations.DecodeReadsBackEveryEncoding := by
  intro c hc i rest more op a b h
  obtain ⟨rfl, hops⟩ := List.cons.inj h
  rw [decode_opc hc, build_mnemonic_of_operands_append hops]

/-- Settles O6: the encoding is as many of the fetched bytes as the mnemonic has, one more than its operands. -/
theorem decodedBytesBeginWithTheEncoding : Obligations.DecodedBytesBeginWithTheEncoding := by
  intro c hc op a b i h
  rcases decode_cases c op a b with ⟨m, rfl, hd⟩ | ⟨-, hd⟩
  · obtain rfl : Instr.build m a b = i := Except.ok.inj (hd.symm.trans h)
    have hcount : (c.opc m).toNat / 64 = m.operandCount := hc.2 m
    rw [encode_build, hcount]
    exact ⟨List.take_prefix _ _, List.length_take_of_le (Nat.succ_le_succ (operandCount_le_two m))⟩
  · cases hd.symm.trans h

/-- Settles O7, by evaluating the decoder under the default table. -/
theorem wordsWrittenOutDecode : Obligations.WordsWrittenOutDecode :=
  ⟨rfl, rfl, rfl, rfl, rfl, rfl, rfl, rfl, rfl⟩

/-! ## Assigned and unassigned opcodes -/

/-- The decoder rejects exactly the bytes outside the opcode map (R68). -/
theorem decode_unassigned_iff : decode c op a b = .error (.unassigned op) ↔ ∀ m, c.opc m ≠ op := by
  rcases decode_cases c op a b with ⟨m, hm, hd⟩ | ⟨hu, hd⟩
  · rw [hd]
    exact ⟨nofun, fun h => absurd hm (h m)⟩
  · exact ⟨fun _ => hu, fun _ => hd⟩

/-- Settles O8: the decoder answers by lookup in the map, and the counts are those of the 256 bytes looked up in the
default table. -/
theorem unassignedIsExactlyOutsideTheTable : Obligations.UnassignedIsExactlyOutsideTheTable :=
  ⟨fun _ _ _ _ => decode_unassigned_iff, by decide⟩

/-- Settles O9: the two high bits are the operand count, which is at most 2. -/
theorem noAssignedOpcodeHasThreeOperands : Obligations.NoAssignedOpcodeHasThreeOperands := by
  intro c hc m
  have hcount : (c.opc m).toNat / 64 = m.operandCount := hc.2 m
  have hle := operandCount_le_two m
  omega

/-- Settles O10: of the candidate bytes only those the mnemonic counts are taken. -/
theorem unusedOperandBytesAreIgnored : Obligations.UnusedOperandBytesAreIgnored := by
  intro c hc m a b a' b'
  simp only [decode_opc hc]
  constructor
  · intro h
    refine congrArg _ (build_eq_of_take_eq ?_)
    rcases Nat.le_one_iff_eq_zero_or_eq_one.1 h with h | h <;> rw [h] <;> rfl
  · intro h
    refine congrArg _ (build_eq_of_take_eq ?_)
    rw [h]
    rfl

end Sys2Proof.Machine
end

section
/-! PROOFS. Canonical memories (20_memory.md R40; log 16): what is listed is what reads as something else than an
unlisted address. -/

namespace Sys2Proof.Machine.Memory

/-- In canonical form the entries are exactly the cells that do not read as unlisted. -/
theorem mem_iff_get {m : Memory} (hm : m.wf) (p : Host.Cell) : p ∈ m ↔ m.get p.1 = p.2 ∧ p.2 ≠ unlisted := by
  induction m with
  | nil => simp [eq_comm]
  | cons q rest ih =>
    obtain ⟨hsort, hall⟩ := hm
    obtain ⟨hhead, htail⟩ := List.pairwise_cons.1 hsort
    have hrest : Memory.wf rest := ⟨htail, fun r hr => hall r (List.mem_cons_of_mem q hr)⟩
    rw [List.mem_cons, get]
    split
    · next heq =>
      have hnot : p ∉ rest := fun hp => Nat.ne_of_gt (hhead p hp) heq
      have hq : q.2 ≠ unlisted := (hall q List.mem_cons_self).2
      constructor
      · rintro (rfl | hp)
        · exact ⟨rfl, hq⟩
        · exact absurd hp hnot
      · rintro ⟨hval, -⟩
        exact .inl (Prod.ext heq hval.symm)
    · next hne =>
      have hpq : p ≠ q := fun h => hne (congrArg Prod.fst h)
      rw [or_iff_right hpq, ih hrest]

/-- An entry of one canonical memory is listed in every other that reads like it. -/
theorem mem_of_get_eq {m k : Memory} (hm : m.wf) (hk : k.wf) (h : ∀ n, n < 256 → m.get n = k.get n) {p : Host.Cell}
    (hp : p ∈ m) : p ∈ k := by
  rw [mem_iff_get hk, ← h p.1 (hm.2 p hp).1]
  exact (mem_iff_get hm p).1 hp

/-- Settles O4: memories that read alike list the same entries, and a strictly rising list is determined by its
entries. -/
theorem memoriesThatReadAlikeAreEqual : Obligations.MemoriesThatReadAlikeAreEqual := by
  intro m k hm hk h
  have hmem (p : Host.Cell) : p ∈ m ↔ p ∈ k :=
    ⟨mem_of_get_eq hm hk h, mem_of_get_eq hk hm fun n hn => (h n hn).symm⟩
  have : Std.Irrefl fun p q : Host.Cell => p.1 < q.1 := ⟨fun p => Nat.lt_irrefl p.1⟩
  have : Std.Antisymm fun p q : Host.Cell => p.1 < q.1 := ⟨fun _ _ hpq hqp => absurd hqp (Nat.lt_asymm hpq)⟩
  exact hm.1.eq_of_mem_iff hk.1 hmem

end Sys2Proof.Machine.Memory
end

section
/-! PROOFS. Execution and the step (40_cycle.md R80 to R88, 60_exceptions.md R160 to R169): every instruction has an
outcome, and what a step that ends a run has done. -/

namespace Sys2Proof.Machine

variable {s t : State} {i : Instr} {c : Config}

/-! ## Every instruction has an outcome -/

/-- A well-formed instruction has no operand that fails CHECK (R63, R85). -/
theorem badOperand_eq_none_of_wf (h : i.wf = true) : badOperand i = none := by
  simpa [badOperand, Instr.wf] using h

/-- Register operands leave a next state: a bad one aborts, which is a next state too (R160, R162). -/
theorem withReg_next {a : Byte} {k : Fin Config.numRegs → Result} (hk : ∀ r, ∃ t, k r = .next t) :
    ∃ t, withReg a s k = .next t := by
  rcases Nat.lt_or_ge a.toNat 8 with ha | ha
  · rw [withReg_ok ha]
    exact hk _
  · exact ⟨_, withReg_error ha k⟩

theorem withRegs_next {a b : Byte} {k : Fin Config.numRegs → Fin Config.numRegs → Result}
    (hk : ∀ r q, ∃ t, k r q = .next t) : ∃ t, withRegs a b s k = .next t :=
  withReg_next fun r => withReg_next (hk r)

/-- Executing an instruction always answers a next state. -/
theorem exec_next (i : Instr) (s : State) : ∃ t, exec i s = .next t := by
  cases i
  case hlt => exact ⟨_, rfl⟩
  case ret => exact ⟨_, topByte_eq _⟩
  case push | call => exact withReg_next fun _ => ⟨_, pushByte_eq _ _⟩
  case pop => exact withReg_next fun _ => ⟨_, topByte_eq _⟩
  case prn | jmp | jeq | jne | not | ldi => exact withReg_next fun _ => ⟨_, rfl⟩
  case add | sub | mul | cmp | and | or | xor | shl | shr => exact withRegs_next fun _ _ => ⟨_, rfl⟩
  case mod =>
    refine withRegs_next fun _ _ => ?_
    split
    · exact ⟨_, rfl⟩
    · exact ⟨_, rfl⟩

/-- An instruction whose register operands all pass CHECK has an effect, in every state. -/
theorem exists_effect (s : State) (h : badOperand i = none) : ∃ t, Effect s i t := by
  obtain ⟨t, ht⟩ := exec_next i s
  rcases exec_cases ht with heff | ⟨v, hv, -⟩
  · exact ⟨t, heff⟩
  · cases h.symm.trans hv

/-- Settles O17: the abort of CHECK, which comes before any effect. -/
theorem firstBadOperandAborts : Obligations.FirstBadOperandAborts := fun _ s _ h => exec_of_badOperand s h

/-- Settles O18: with valid operands the outcome is the instruction's effect, which keeps the status or halts. -/
theorem wellFormedInstructionsComplete : Obligations.WellFormedInstructionsComplete := by
  intro i s h
  obtain ⟨t, ht⟩ := exists_effect s (badOperand_eq_none_of_wf h)
  exact ⟨t, ht.exec_eq, ht.status_cases⟩

/-! ## The step, from what the fetch finds -/

/-- Settles O11: the fetch and the decoder pass the state on as it is, under every map. -/
theorem stepRunsTheDecodedInstruction : Obligations.StepRunsTheDecodedInstruction :=
  ⟨fun _ _ _ h => stepWith_of_runs h, fun _ _ h => stepWith_of_runs h⟩

/-- Settles O12: an unassigned opcode is executed as an advance by its length. -/
theorem unassignedOpcodeOnlyAdvances : Obligations.UnassignedOpcodeOnlyAdvances := by
  intro c s op a b ⟨hrun, hpc, hop, ha, hb⟩ hu
  rw [stepWith_running hrun, cycle, fetch_ok hpc, orRaise_ok, hop, execBytes_unassigned _ _ hu]
  rfl

/-- A fetch that reaches past the end of memory aborts and changes nothing but the status (R82, R162). -/
theorem stepWith_of_fetch_past_end (c : Config) (hrun : s.status = .running) (hpc : 254 ≤ s.pc) :
    stepWith c s = .next { s with status := .aborted (.addressOutOfRange (fetchAbortAddr s.pc)) } := by
  rw [stepWith_running hrun, cycle, fetch_error hpc, orRaise_error]
  rfl

/-- Settles O13: the two clauses on the address are the two sides of its maximum. -/
theorem fetchPastTheEndAborts : Obligations.FetchPastTheEndAborts := fun c _ hrun hpc =>
  ⟨stepWith_of_fetch_past_end c hrun hpc, fun h => max_eq_left h, fun h => max_eq_right h⟩

/-- A running machine takes a step, whatever the fetch finds (R80). -/
theorem stepWith_next_of_running (c : Config) (hrun : s.status = .running) : ∃ t, stepWith c s = .next t := by
  rw [stepWith_running hrun]
  rcases cycle_cases c s with ⟨-, hc⟩ | ⟨-, i, -, hc⟩ | ⟨-, -, hc⟩
  · exact ⟨_, hc⟩
  · rw [hc]
    exact exec_next i s
  · exact ⟨_, hc⟩

/-- Settles O14: the loop body always answers a next state, and it runs only while the status is running. -/
theorem exactlyARunningMachineSteps : Obligations.ExactlyARunningMachineSteps := fun c _ =>
  ⟨fun ⟨_, h⟩ => running_of_next h, stepWith_next_of_running c⟩

/-- Settles O15, by the status that a step looks at first. -/
theorem terminalStatesAnswerByName : Obligations.TerminalStatesAnswerByName := fun c s =>
  ⟨fun _ h => by rw [stepWith, h], fun h => by rw [stepWith, h]⟩

/-! ## The ways a step ends a run -/

/-- An effect does not abort a running machine. -/
theorem Effect.status_ne_aborted (h : Effect s i t) (hrun : s.status = .running) (cause : Cause) :
    t.status ≠ .aborted cause := by
  intro habort
  rcases h.status_cases with hst | hst
  · cases habort.symm.trans (hst.trans hrun)
  · cases habort.symm.trans hst

/-- The effects that halt a running machine are HLT's and that of MOD with a zero divisor (R165). -/
theorem Effect.halted_cases (h : Effect s i t) (hrun : s.status = .running) (hhalt : t.status = .halted) :
    i = .hlt ∨ ∃ (a b : Byte) (_ : a.toNat < 8) (hb : b.toNat < 8), i = .mod a b ∧ s.getReg (regOf b hb) = 0 := by
  cases h
  case hlt => exact .inl rfl
  case modZero a b ha hb h => exact .inr ⟨a, b, ha, hb, rfl, h⟩
  all_goals cases hrun.symm.trans hhalt

/-- What a step has done that aborts: a fetch past the end of memory or a bad register operand, with all but the
status left as it was (R160, R162). -/
theorem stepWith_aborted_cases {cause : Cause} (h : stepWith c s = .next t) (habort : t.status = .aborted cause) :
    t = { s with status := .aborted cause } ∧
      ((254 ≤ s.pc ∧ cause = .addressOutOfRange (fetchAbortAddr s.pc)) ∨
        ∃ i v, Runs c s i ∧ badOperand i = some v ∧ cause = .registerIndexOutOfRange v) := by
  obtain ⟨hrun, ⟨hpc, rfl⟩ | ⟨i, hi, he⟩ | ⟨-, -, rfl⟩⟩ := stepWith_cases h
  · cases habort
    exact ⟨rfl, .inl ⟨hpc, rfl⟩⟩
  · rcases exec_cases he with heff | ⟨v, hv, rfl⟩
    · exact absurd habort (heff.status_ne_aborted hrun cause)
    · cases habort
      exact ⟨rfl, .inr ⟨i, v, hi, hv, rfl⟩⟩
  · cases hrun.symm.trans habort

/-- What a step has done that halts: run HLT, or MOD with valid operands and a zero divisor (R167). -/
theorem stepWith_halted_cases (h : stepWith c s = .next t) (hhalt : t.status = .halted) :
    Runs c s .hlt ∨ ∃ (a b : Byte) (_ : a.toNat < 8) (hb : b.toNat < 8),
      Runs c s (.mod a b) ∧ s.getReg (regOf b hb) = 0 := by
  obtain ⟨hrun, ⟨-, rfl⟩ | ⟨i, hi, he⟩ | ⟨-, -, rfl⟩⟩ := stepWith_cases h
  · cases hhalt
  · rcases exec_cases he with heff | ⟨v, -, rfl⟩
    · rcases heff.halted_cases hrun hhalt with rfl | ⟨a, b, ha, hb, rfl, hzero⟩
      · exact .inl hi
      · exact .inr ⟨a, b, ha, hb, hi, hzero⟩
    · cases hhalt
  · cases hrun.symm.trans hhalt

/-- The step of a machine about to run `i` has the effect of `i`. -/
theorem Effect.stepWith_eq (h : Effect s i t) (hi : Runs c s i) : stepWith c s = .next t :=
  (stepWith_of_runs hi).trans h.exec_eq

/-- A step answers one next state. -/
theorem stepWith_next_unique {u : State} (h : stepWith c s = .next t) (h' : stepWith c s = .next u) : t = u :=
  Host.Outcome.next.inj (h.symm.trans h')

/-- Settles O19: both kinds of abort replace the status. -/
theorem anAbortingStepChangesOnlyTheStatus : Obligations.AnAbortingStepChangesOnlyTheStatus :=
  fun _ _ _ _ h habort => (stepWith_aborted_cases h habort).1

/-- Settles O20: forwards by what a step that halts or aborts has done, backwards by what the step then answers. -/
theorem everyWayARunStops : Obligations.EveryWayARunStops := by
  intro c s t h
  refine ⟨⟨stepWith_halted_cases h, ?_⟩, fun n => ⟨fun habort => ?_, ?_⟩, fun v => ⟨fun habort => ?_, ?_⟩⟩
  · rintro (hi | ⟨a, b, ha, hb, hi, hzero⟩)
    · rw [stepWith_next_unique h (Effect.hlt.stepWith_eq hi)]
      rfl
    · rw [stepWith_next_unique h ((Effect.modZero ha hb hzero).stepWith_eq hi)]
      rfl
  · obtain ⟨-, ⟨hpc, hn⟩ | ⟨_, _, -, -, hn⟩⟩ := stepWith_aborted_cases h habort <;> cases hn
    exact ⟨hpc, rfl⟩
  · rintro ⟨hpc, rfl⟩
    rw [stepWith_next_unique h (stepWith_of_fetch_past_end c (running_of_next h) hpc)]
  · obtain ⟨-, ⟨-, hv⟩ | ⟨i, w, hi, hbad, hv⟩⟩ := stepWith_aborted_cases h habort <;> cases hv
    exact ⟨i, hi, hbad⟩
  · rintro ⟨i, hi, hbad⟩
    rw [stepWith_next_unique h ((stepWith_of_runs hi).trans (exec_of_badOperand s hbad))]

/-! ## Two register operands -/

/-- An instruction with two register operands aborts on the first that is 8 or more (R85, R162). -/
theorem abortsOn_of_regOperands_pair {a b : Byte} (s : State) (hops : i.regOperands = [a, b]) :
    (8 ≤ a.toNat → AbortsOn i s a) ∧ (a.toNat < 8 → 8 ≤ b.toNat → AbortsOn i s b) := by
  constructor
  · intro ha
    have hbad : badOperand i = some a := by simp [badOperand, hops, validIndex, ha]
    exact exec_of_badOperand s hbad
  · intro ha hb
    have hbad : badOperand i = some b := by simp [badOperand, hops, validIndex, ha, hb]
    exact exec_of_badOperand s hbad

/-- Settles O21: the fetch comes before the operands, `a` before `b`, and the divisor last. -/
theorem conditionsAreReportedInOrder : Obligations.ConditionsAreReportedInOrder := by
  intro c hc s hrun
  refine ⟨stepWith_of_fetch_past_end c hrun, fun a b hfetch => ?_⟩
  have hi : Runs c s (.mod a b) := runs_build hc hfetch
  obtain ⟨hleft, hright⟩ := abortsOn_of_regOperands_pair (i := .mod a b) s rfl
  rw [stepWith_of_runs hi]
  exact ⟨hleft, hright, fun ha hb hzero => ⟨_, (Effect.modZero ha hb hzero).exec_eq, rfl, rfl⟩⟩

/-! ## ADVANCE -/

/-- Every effect but a taken control transfer moves pc by one more than the operand count (R83, R86, R87). -/
theorem Effect.pc_eq (h : Effect s i t) (hctl : isControl i = true →
      (∃ a, i = .jeq a ∧ s.fl.eq = false) ∨ (∃ a, i = .jne a ∧ s.fl.eq = true)) :
    t.pc = s.pc + (i.mnemonic.operandCount + 1) := by
  cases h
  case ret | call | jmp => simp [isControl] at hctl
  case jeqTaken h | jneTaken h => simp [isControl, h] at hctl
  all_goals rfl

/-- Settles O16: the two high bits of an assigned opcode are the operand count, and an unassigned opcode advances by
the same formula. -/
theorem pcAdvancesByTheOpcodesLength : Obligations.PcAdvancesByTheOpcodesLength := by
  intro c hc s t h hok hctl
  obtain ⟨-, ⟨-, rfl⟩ | ⟨i, hi, he⟩ | ⟨-, -, rfl⟩⟩ := stepWith_cases h
  · exact absurd rfl (hok _)
  · rcases exec_cases he with heff | ⟨v, -, rfl⟩
    · have hcount : (s.mem.get s.pc).toNat / 64 = i.mnemonic.operandCount := hi.opcode ▸ hc.2 i.mnemonic
      rw [hcount]
      exact heff.pc_eq (hctl i hi)
    · exact absurd rfl (hok _)
  · rfl

end Sys2Proof.Machine
end

section
/-! PROOFS. The ALU instructions that remain (41_alu.md R104, R108 to R111): shifts, NOT, CMP and MOD; and HLT
(42_load_print_halt.md R122). -/

namespace Sys2Proof.Machine

/-! ## Shifts -/

/-- The case of 8 places and more is what the shift of a byte gives by itself (R109; log 9). -/
theorem aluShl_eq (p q : Byte) : aluShl p q = p <<< q.toNat := by
  rw [aluShl]
  split
  · next h => exact (BitVec.shiftLeft_eq_zero h).symm
  · rfl

theorem aluShr_eq (p q : Byte) : aluShr p q = p >>> q.toNat := by
  rw [aluShr]
  split
  · next h => exact (BitVec.ushiftRight_eq_zero h).symm
  · rfl

theorem aluShl_toNat (p q : Byte) : (aluShl p q).toNat = (p.toNat * 2 ^ q.toNat) % 256 := by
  rw [aluShl_eq, BitVec.toNat_shiftLeft, Nat.shiftLeft_eq]

theorem aluShr_toNat (p q : Byte) : (aluShr p q).toNat = p.toNat / 2 ^ q.toNat := by
  rw [aluShr_eq, BitVec.toNat_ushiftRight, Nat.shiftRight_eq_div_pow]

/-- Settles O24, by the shared form: a shift multiplies or divides by the power of two. -/
theorem shiftsTakeTheWholeByte : Obligations.ShiftsTakeTheWholeByte :=
  ⟨twoRegisterRule_of_effect rfl (fun _ _ => rfl) (fun _ _ _ => .shl) fun p q => ⟨aluShl_toNat p q, fun h => if_pos h⟩,
    twoRegisterRule_of_effect rfl (fun _ _ => rfl) (fun _ _ _ => .shr) fun p q => ⟨aluShr_toNat p q, fun h => if_pos h⟩⟩

/-! ## NOT -/

/-- The register written reads as the value written, after the advance too. -/
theorem setReg_advance_getReg_self (s : State) (r : Fin Config.numRegs) (v : Byte) (n : Nat) :
    ((s.setReg r v).advance n).getReg r = v :=
  (State.advance_getReg _ r n).trans (State.getReg_setReg_self s r v)

theorem aluNot_toNat (p : Byte) : (aluNot p).toNat = 255 - p.toNat := BitVec.toNat_not

/-- Settles O25, by NOT's effect: the complement of a byte is its distance from 255. -/
theorem notInvertsTheByte : Obligations.NotInvertsTheByte := by
  refine ⟨encodedBy_build rfl, fun s a => ⟨fun ha => ?_, abortsOn_of_regOperands_singleton s rfl⟩⟩
  have hreg := setReg_advance_getReg_self s (regOf a ha) (aluNot (s.getReg (regOf a ha))) 2
  exact ⟨_, (Effect.not ha).exec_eq, (congrArg BitVec.toNat hreg).trans (aluNot_toNat _), rfl,
    regsKept_setReg_advance s _ _ 2, fun _ _ => rfl, rfl, rfl, rfl⟩

/-! ## CMP -/

/-- Of the three flags that a comparison gives, exactly one is set (R26, R104). -/
theorem compareFlags_cases (p q : Byte) : compareFlags p q = ⟨true, false, false⟩ ∨
    compareFlags p q = ⟨false, true, false⟩ ∨ compareFlags p q = ⟨false, false, true⟩ := by
  rcases Nat.lt_trichotomy p.toNat q.toNat with h | h | h
  · exact .inl (by simp [compareFlags, h, h.ne, h.le])
  · exact .inr (.inr (by simp [compareFlags, h]))
  · exact .inr (.inl (by simp [compareFlags, h, h.ne', h.le]))

/-- Settles O26, by CMP's effect: the flags of the comparison, and pc moved by 3. -/
theorem cmpSetsExactlyOneFlag : Obligations.CmpSetsExactlyOneFlag := by
  refine ⟨encodedBy_build rfl, fun s a b => ⟨fun ha hb => ?_, abortsOn_of_regOperands_pair s rfl⟩⟩
  exact ⟨_, (Effect.cmp ha hb).exec_eq, decide_eq_true_iff, decide_eq_true_iff,
    decide_eq_true_iff.trans BitVec.toNat_inj, compareFlags_cases _ _, rfl, fun _ _ => rfl, fun _ _ => rfl, rfl, rfl⟩

/-! ## MOD -/

theorem aluMod_toNat (p q : Byte) : (aluMod p q).toNat = p.toNat % q.toNat := BitVec.toNat_umod

/-- Settles O27, by MOD's effect for a non-zero divisor. -/
theorem modGivesTheRemainder : Obligations.ModGivesTheRemainder := by
  refine ⟨encodedBy_build rfl, fun s a b => ⟨fun ha hb hne => ?_, abortsOn_of_regOperands_pair s rfl⟩⟩
  have hpos : 0 < (s.getReg (regOf b hb)).toNat :=
    Nat.pos_of_ne_zero fun h => hne (BitVec.eq_of_toNat_eq h)
  have hreg := setReg_advance_getReg_self s (regOf a ha) (aluMod (s.getReg (regOf a ha)) (s.getReg (regOf b hb))) 3
  have hmod := (congrArg BitVec.toNat hreg).trans (aluMod_toNat _ _)
  exact ⟨_, (Effect.mod ha hb hne).exec_eq, hmod, hmod.trans_lt (Nat.mod_lt _ hpos), rfl,
    regsKept_setReg_advance s _ _ 3, fun _ _ => rfl, rfl, rfl, rfl⟩

/-- Settles O28, by MOD's effect for a zero divisor: no register is written. -/
theorem modByZeroHaltsGracefully : Obligations.ModByZeroHaltsGracefully := fun _ _ _ ha hb hzero =>
  ⟨_, (Effect.modZero ha hb hzero).exec_eq, rfl, rfl, fun _ _ => rfl, rfl, fun _ _ => rfl, rfl⟩

/-! ## HLT -/

/-- Settles O31, by HLT's effect: status and pc written, and nothing else. -/
theorem hltHaltsAndAdvances : Obligations.HltHaltsAndAdvances :=
  ⟨encodedBy_build rfl, fun _ => ⟨_, Effect.hlt.exec_eq, rfl, rfl, fun _ _ => rfl, fun _ _ => rfl, rfl, rfl⟩⟩

end Sys2Proof.Machine
end

section
/-! PROOFS. PUSH and POP (43_stack.md R130, R131), and what the fetch after a push reads (20_memory.md R52). -/

namespace Sys2Proof.Machine

variable (s : State)

/-! ## PUSH -/

/-- A push writes no register but the stack pointer (R130). -/
theorem regsKept_pushed (v : Byte) : RegsKept [Config.spIndex] s (s.pushed v) := fun q hq =>
  State.decSp_getReg s q (List.ne_of_not_mem_cons hq)

/-- Settles O32, by PUSH's effect: the value pushed is the register after the decrement. -/
theorem pushDecrementsThenStores : Obligations.PushDecrementsThenStores := by
  refine ⟨encodedBy_build rfl, fun s a hs => ⟨fun ha => ?_, abortsOn_of_regOperands_singleton s rfl⟩⟩
  have hcell := (pushed_mem_get_sp hs (s.decSp.getReg (regOf a ha))).trans (decSp_getReg_eq_ite s _)
  rw [← State.decSp_sp_toNat]
  exact ⟨_, (Effect.push ha).exec_eq, rfl, (memRead_ok s.decSp.sp.isLt).trans (congrArg Except.ok hcell),
    memKept_pushed s _, regsKept_pushed s (s.decSp.getReg (regOf a ha)), rfl, rfl, rfl, rfl⟩

/-! ## POP -/

/-- The byte popped into register 7 is incremented there (R131; log 10). -/
theorem setReg_spIndex_incSp_sp_toNat (v : Byte) :
    (s.setReg Config.spIndex v).incSp.sp.toNat = (v.toNat + 1) % 256 := by
  have hsp : (s.setReg Config.spIndex v).sp = v := State.getReg_setReg_self s _ v
  rw [State.incSp_sp_toNat, hsp]

/-- A pop writes no register but its destination and the stack pointer (R131). -/
theorem regsKept_setReg_incSp (r : Fin Config.numRegs) (v : Byte) :
    RegsKept [r, Config.spIndex] s (s.setReg r v).incSp := by
  intro q hq
  obtain ⟨hr, hsp⟩ : q ≠ r ∧ q ≠ Config.spIndex := by simpa using hq
  rw [State.incSp_getReg _ q hsp, State.getReg_setReg_other s r q v hr]

/-- Settles O33, by POP's effect, for register 7 as the increment of what was just written. -/
theorem popLoadsThenIncrements : Obligations.PopLoadsThenIncrements := by
  refine ⟨encodedBy_build rfl, fun s a => ⟨fun ha => ?_, abortsOn_of_regOperands_singleton s rfl⟩⟩
  refine ⟨_, s.mem.get s.sp.toNat, (Effect.pop ha).exec_eq, memRead_ok s.sp.isLt, fun hr => ⟨?_, ?_⟩, fun hr => ?_,
    fun _ _ => rfl, regsKept_setReg_incSp s _ _, rfl, rfl, rfl, rfl⟩
  · exact setReg_incSp_getReg_self s _ hr
  · exact (congrArg BitVec.toNat (setReg_incSp_sp s _ hr)).trans (State.incSp_sp_toNat s)
  · rw [hr]
    exact setReg_spIndex_incSp_sp_toNat s _

/-! ## The fetch after a push -/

/-- Byte `k` of a fetch is the cell at pc + k (R82). -/
theorem fetch_getElem {s : State} {k : Nat} (hpc : s.pc ≤ 253) (hk : k < 3) :
    ∃ w, fetch s = .ok w ∧ [w.1, w.2.1, w.2.2][k]? = some (s.mem.get (s.pc + k)) := by
  refine ⟨_, fetch_ok hpc, ?_⟩
  match k, hk with
  | 0, _ | 1, _ | 2, _ => rfl

/-- A fetch that reads the cell at the stack pointer of a state just pushed to sees the pushed byte (R52). -/
theorem fetch_of_mem_eq_pushed {s t : State} {v : Byte} {k : Nat} (hs : s.mem.wf) (hk : k < 3)
    (hmem : t.mem = (s.pushed v).mem) (hpc : t.pc ≤ 253) (haddr : s.decSp.sp.toNat = t.pc + k) :
    ∃ w, fetch t = .ok w ∧ [w.1, w.2.1, w.2.2][k]? = some v := by
  obtain ⟨w, hw, hbyte⟩ := fetch_getElem hpc hk
  have hcell : (s.pushed v).mem.get s.decSp.sp.toNat = v := pushed_mem_get_sp hs v
  rw [hmem, ← haddr, hcell] at hbyte
  exact ⟨w, hw, hbyte⟩

/-- Settles O35: both instructions leave the memory of a push, PUSH at pc + 2 and CALL at its target. -/
theorem nextFetchSeesThePushedByte : Obligations.NextFetchSeesThePushedByte := by
  intro s a ha k hs hk
  rw [← State.decSp_sp_toNat]
  constructor
  · intro hpc haddr
    obtain ⟨w, hw, hbyte⟩ := fetch_of_mem_eq_pushed
      (t := (s.pushed (s.decSp.getReg (regOf a ha))).advance 2) hs hk rfl (Nat.add_le_add_right hpc 2) haddr
    exact ⟨_, w, (Effect.push ha).exec_eq, hw, hbyte.trans (congrArg some (decSp_getReg_eq_ite s _))⟩
  · intro target htarget hpc hle haddr
    have hjump : (s.decSp.getReg (regOf a ha)).toNat = target := by
      rw [htarget, decSp_getReg_eq_ite]
      exact apply_ite BitVec.toNat _ _ _
    obtain ⟨w, hw, hbyte⟩ := fetch_of_mem_eq_pushed
      (t := (s.pushed (returnByte s)).jump (s.decSp.getReg (regOf a ha))) hs hk rfl (hjump.trans_le hle)
      (haddr.trans (congrArg (· + k) hjump.symm))
    exact ⟨_, w, _, (Effect.call ha).exec_eq, hjump, hw, hbyte, returnByte_toNat hpc⟩

end Sys2Proof.Machine
end

section
/-! PROOFS. What an instruction and a step leave unchanged (10_state.md R21, R22, R31, 20_memory.md R43): registers,
memory and output. -/

namespace Sys2Proof.Machine

variable {s t : State} {i : Instr} {c : Config}

/-! ## Registers -/

theorem regOf?_eq {a : Byte} (ha : a.toNat < 8) : regOf? a = [regOf a ha] := dif_pos ha

/-- Writing the register that an operand names, and advancing, keeps every other register (R100). -/
theorem regsKept_regOf?_setReg_advance {a : Byte} (s : State) (ha : a.toNat < 8) (v : Byte) (n : Nat) :
    RegsKept (regOf? a) s ((s.setReg (regOf a ha) v).advance n) :=
  regOf?_eq ha ▸ regsKept_setReg_advance s (regOf a ha) v n

/-- An effect writes no register outside `writtenRegs`. -/
theorem Effect.regsKept (h : Effect s i t) : RegsKept (writtenRegs i) s t := by
  cases h
  case hlt | prn | jmp | jeqTaken | jeqNot | jneTaken | jneNot | cmp | modZero => exact fun _ _ => rfl
  case ret => exact fun q hq => State.incSp_getReg _ q (List.ne_of_not_mem_cons hq)
  case push ha => exact regsKept_pushed s (s.decSp.getReg (regOf _ ha))
  case call => exact regsKept_pushed s (returnByte s)
  case pop ha =>
    intro q hq
    exact regsKept_setReg_incSp s _ _ q (by simpa [writtenRegs, regOf?_eq ha, and_comm] using hq)
  case not ha | ldi ha => exact regsKept_regOf?_setReg_advance s ha _ _
  case add ha hb | sub ha hb | mul ha hb | and ha hb | or ha hb | xor ha hb | shl ha hb | shr ha hb =>
    exact regsKept_regOf?_setReg_advance s ha _ 3
  case mod ha hb _ => exact regsKept_regOf?_setReg_advance s ha _ 3

/-- Settles O42: an effect writes its own registers only, and the abort of a bad operand none. -/
theorem onlyDestinationRegistersChange : Obligations.OnlyDestinationRegistersChange := by
  intro i s t h
  rcases exec_cases h with heff | ⟨v, -, rfl⟩
  · exact heff.regsKept
  · exact fun _ _ => rfl

/-! ## Memory -/

/-- An effect writes no cell outside `writtenCells`: only PUSH and CALL push a byte. -/
theorem Effect.memKept (h : Effect s i t) : MemKept (writtenCells i s) s t := by
  cases h
  case push ha => exact memKept_pushed s (s.decSp.getReg (regOf _ ha))
  case call => exact memKept_pushed s (returnByte s)
  all_goals exact fun _ _ => rfl

/-- Settles O43: an effect writes its own cell only, and the abort of a bad operand none. -/
theorem onlyPushAndCallWriteMemory : Obligations.OnlyPushAndCallWriteMemory := by
  intro i s t h
  rcases exec_cases h with heff | ⟨v, -, rfl⟩
  · exact heff.memKept
  · exact fun _ _ => rfl

/-! ## Output -/

/-- What an effect appends to the output (R31). -/
theorem Effect.out_cases (h : Effect s i t) : t.out = s.out ∨
    (∃ (a : Byte) (ha : a.toNat < 8), i = .prn a ∧ t.out = s.out ++ [.print (s.getReg (regOf a ha))]) ∨
    (∃ (a b : Byte) (_ : a.toNat < 8) (hb : b.toNat < 8), i = .mod a b ∧ s.getReg (regOf b hb) = 0 ∧
      t.out = s.out ++ [.divZeroDiag] ∧ t.status = .halted) := by
  cases h
  case prn a ha => exact .inr (.inl ⟨a, ha, rfl, rfl⟩)
  case modZero a b ha hb hzero => exact .inr (.inr ⟨a, b, ha, hb, rfl, hzero, rfl, rfl⟩)
  all_goals exact .inl rfl

/-- Settles O44: aborts and unassigned opcodes keep the output, and of the effects only PRN's and that of MOD with a
zero divisor append to it. -/
theorem onlyPrnAndZeroDivisorsEmit : Obligations.OnlyPrnAndZeroDivisorsEmit := by
  intro c s t h
  obtain ⟨-, ⟨-, rfl⟩ | ⟨i, hi, he⟩ | ⟨-, -, rfl⟩⟩ := stepWith_cases h
  · exact .inl rfl
  · rcases exec_cases he with heff | ⟨v, -, rfl⟩
    · rcases heff.out_cases with hout | ⟨a, ha, rfl, hout⟩ | ⟨a, b, ha, hb, rfl, hrest⟩
      · exact .inl hout
      · exact .inr (.inl ⟨a, ha, hi, hout⟩)
      · exact .inr (.inr ⟨a, b, ha, hb, hi, hrest⟩)
    · exact .inl rfl
  · exact .inl rfl

/-- The output after a step begins with the output before it. -/
theorem out_prefix_of_stepWith (h : stepWith c s = .next t) : s.out <+: t.out := by
  rcases onlyPrnAndZeroDivisorsEmit c s t h with hout | ⟨_, _, -, hout⟩ | ⟨_, _, _, _, -, -, hout, -⟩
  · exact hout ▸ List.prefix_rfl
  · exact hout ▸ List.prefix_append _ _
  · exact hout ▸ List.prefix_append _ _

end Sys2Proof.Machine
end

section
/-! PROOFS. The invariant (10_state.md R24, R26, 20_memory.md R40, 60_exceptions.md R160): it holds after reset and
after loading, and every step keeps it. -/

namespace Sys2Proof.Machine

variable {s t : State} {i : Instr}

/-! ## The parts of the invariant, kept by an effect -/

theorem pushed_mem_wf (hs : s.mem.wf) (v : Byte) : (s.pushed v).mem.wf := Memory.set_wf v s.decSp.sp.isLt hs

/-- An effect keeps memory canonical: a pushed byte goes to an address below 256. -/
theorem Effect.mem_wf (h : Effect s i t) (hs : s.mem.wf) : t.mem.wf := by
  cases h
  case push ha => exact pushed_mem_wf hs (s.decSp.getReg (regOf _ ha))
  case call => exact pushed_mem_wf hs (returnByte s)
  all_goals exact hs

theorem toNat_le_257 (v : Byte) : v.toNat ≤ 257 := Nat.le_trans (Nat.le_of_lt v.isLt) (by decide)

/-- An advance of at most four bytes from a pc where the fetch succeeds stays within the bound (R24). -/
theorem advance_pc_le {n : Nat} (hpc : s.pc ≤ 253) (hn : n ≤ 4) : (s.advance n).pc ≤ 257 := Nat.add_le_add hpc hn

/-- From a pc where the fetch succeeds, an effect leads to a byte, or at most 4 further (R24). -/
theorem Effect.pc_le (h : Effect s i t) (hpc : s.pc ≤ 253) : t.pc ≤ 257 := by
  cases h
  case ret | call | jmp | jeqTaken | jneTaken => exact toNat_le_257 _
  all_goals exact advance_pc_le hpc (by decide)

theorem compareFlags_exclusive (p q : Byte) : (compareFlags p q).exclusive = true := by
  rcases compareFlags_cases p q with h | h | h <;> rw [h] <;> rfl

/-- An effect keeps the flags exclusive: CMP's sets one, and no other writes them (R26, R27). -/
theorem Effect.fl_exclusive (h : Effect s i t) (hs : s.fl.exclusive = true) : t.fl.exclusive = true := by
  cases h
  case cmp => exact compareFlags_exclusive _ _
  all_goals exact hs

theorem causeOk_of_not_aborted (h : s.status = .running ∨ s.status = .halted) : causeOk s = true := by
  rcases h with h | h <;> rw [causeOk, h]

/-- A machine whose fetch succeeds keeps the invariant through an effect. -/
theorem Effect.inv (h : Effect s i t) (hrun : s.status = .running) (hpc : s.pc ≤ 253) (hs : s.Inv) : t.Inv := by
  obtain ⟨hwf, -, hfl, -⟩ := hs
  exact ⟨h.mem_wf hwf, h.pc_le hpc, h.fl_exclusive hfl,
    causeOk_of_not_aborted (h.status_cases.imp_left fun hst => hst.trans hrun)⟩

/-! ## The step -/

/-- An operand that fails CHECK is 8 or more (R85). -/
theorem le_toNat_of_badOperand {v : Byte} (h : badOperand i = some v) : 8 ≤ v.toNat := by
  simpa [validIndex] using List.find?_some h

/-- The length of an instruction in bytes, at most four (R60, R83). -/
theorem opcodeLength_le_four (op : Byte) : opcodeLength op ≤ 4 := by
  have hcount : opcodeCount op < 4 := Nat.div_lt_of_lt_mul op.isLt
  exact Nat.succ_le_of_lt hcount

/-- Settles O45, by what a step has done: an abort's cause fits the frozen pc, and an effect or an unassigned opcode
starts from a pc of at most 253. -/
theorem stepKeepsTheInvariant : Obligations.StepKeepsTheInvariant := by
  intro c s t hs h
  have hinv := hs
  obtain ⟨hwf, hpc, hfl, -⟩ := hs
  obtain ⟨hrun, ⟨hend, rfl⟩ | ⟨i, hi, he⟩ | ⟨hle, -, rfl⟩⟩ := stepWith_cases h
  · exact ⟨hwf, hpc, hfl, decide_eq_true ⟨hend, rfl⟩⟩
  · rcases exec_cases he with heff | ⟨v, hbad, rfl⟩
    · exact heff.inv hrun hi.pc_le hinv
    · exact ⟨hwf, hpc, hfl, decide_eq_true (le_toNat_of_badOperand hbad)⟩
  · exact ⟨hwf, advance_pc_le hle (opcodeLength_le_four _), hfl, causeOk_of_not_aborted (.inl hrun)⟩

/-! ## Reset and loading -/

/-- The machine with any bytes loaded meets the invariant: the loader keeps memory canonical (R190, R192). -/
theorem boot_inv (image : List Byte) : (State.boot image).Inv :=
  ⟨Memory.place_wf image 0 Memory.wf_nil, Nat.zero_le _, rfl, rfl⟩

/-- Settles O46: reset is the machine with no byte loaded. -/
theorem resetHasTheInvariant : Obligations.ResetHasTheInvariant := ⟨boot_inv [], boot_inv⟩

end Sys2Proof.Machine
end

section
/-! PROOFS. Runs (40_cycle.md R89): where a run stops, and its output; and the instruction placed for the next step
(log 12). -/

namespace Sys2Proof.Machine

variable {s : State}

/-! ## Runs -/

/-- A status other than running is one of the two terminal ones (R29). -/
theorem halted_or_aborted_of_not_running (h : s.status ≠ .running) :
    s.status = .halted ∨ ∃ cause, s.status = .aborted cause := by
  cases hst : s.status with
  | running => exact absurd hst h
  | halted => exact .inl rfl
  | aborted cause => exact .inr ⟨cause, rfl⟩

/-- Settles O47, by induction on the number of steps: a running machine takes the first one, any other has stopped. -/
theorem runsStopOnlyHaltedOrAborted : Obligations.RunsStopOnlyHaltedOrAborted := by
  intro k
  induction k with
  | zero => exact fun s h => absurd (run_zero s) (h s)
  | succ k ih =>
    intro s h
    by_cases hrun : s.status = .running
    · obtain ⟨t, ht⟩ : ∃ t, step s = .next t := stepWith_next_of_running Config.default hrun
      obtain ⟨j, u, hj, hu, hstop⟩ := ih t fun u hu => h u ((run_succ_of_next ht).trans hu)
      exact ⟨j + 1, u, Nat.succ_lt_succ hj, (run_succ_of_next ht).trans hu, hstop⟩
    · exact ⟨0, s, Nat.succ_pos k, run_zero s, halted_or_aborted_of_not_running hrun⟩

/-- Settles O48, by induction on the number of steps. -/
theorem outputOnlyGrowsAlongARun : Obligations.OutputOnlyGrowsAlongARun := by
  rintro s t ⟨k, h⟩
  induction k generalizing s with
  | zero =>
    obtain rfl : s = t := Host.Outcome.next.inj h
    exact List.prefix_rfl
  | succ k ih =>
    obtain ⟨u, hu, hrest⟩ := next_of_run_succ h
    exact (out_prefix_of_stepWith hu).trans (ih u hrest)

/-! ## The placed instruction -/

/-- A word of the table decodes by its three bytes. -/
theorem decode_of_decodeTableWord {nbits w : Nat} {i : Instr} (h : decodeTableWord nbits w = some i) :
    decode Config.default (tableByte nbits w 0) (tableByte nbits w 1) (tableByte nbits w 2) = .ok i := by
  unfold decodeTableWord at h
  split at h
  · next hd => rw [hd, Option.some.inj h]
  · cases h

/-- The bytes of a placed word stand where the next fetch reads. -/
theorem get_placeWord (hs : s.mem.wf) (hpc : s.pc ≤ 253) (nbits w : Nat) {k : Nat} (hk : k < 3) :
    (s.placeWord nbits w).mem.get (s.pc + k) = tableByte nbits w k := by
  have haddr : s.pc + k < Config.memSize := Nat.lt_of_le_of_lt (Nat.add_le_add hpc (Nat.le_of_lt_succ hk)) (by decide)
  refine (Memory.get_place _ s.pc (s.pc + k) hs haddr).trans ?_
  rw [dif_pos ⟨Nat.le_add_right _ _, by simpa using hk⟩]
  simp only [Nat.add_sub_cancel_left]
  match k, hk with
  | 0, _ | 1, _ | 2, _ => rfl

/-- Settles O49: placing changes memory alone, so the next fetch finds the word's three bytes. -/
theorem placedInstructionRunsNext : Obligations.PlacedInstructionRunsNext := by
  intro s nbits w i hs hrun hpc h
  have hi : Runs Config.default (s.withFetchWord nbits w) i :=
    ⟨_, _, _, ⟨hrun, hpc, get_placeWord hs hpc nbits w (k := 0) (by decide),
      get_placeWord hs hpc nbits w (k := 1) (by decide), get_placeWord hs hpc nbits w (k := 2) (by decide)⟩,
      decode_of_decodeTableWord h⟩
  exact ⟨hi, stepWith_of_runs hi⟩

end Sys2Proof.Machine
end
